-- ==== Sys2Proof/Word.lean ====
section
/-! DEFINITION. The word types of the RE/TE block: a byte (00_scope R8: DEVADDR_W, REGADDR_W, DATA_W and TSTATUS_W
are all 8) and the 32-bit command and result words (R8: CW_W, RW_W). -/

namespace Sys2Proof

/-- A byte: a device address, a register offset, a register value (R8). -/
abbrev Byte := BitVec 8

/-- A transport status code (R8, `TSTATUS_W`). -/
abbrev Status := BitVec 8

/-- A command word or a result word (R8, `CW_W` and `RW_W`). -/
abbrev Word32 := BitVec 32

end Sys2Proof
end

