-- ==== Sys2Proof/Config.lean ====
section
/-! DEFINITION. The implementation parameters of 00_scope R8 and the free values: draws (`any8()`, R11) and the
moves of an environment of which nothing is known (R7). A parameter the spec leaves OPEN is an opaque constant: nothing
can be proved of its value. -/

namespace Sys2Proof.Machine

/-- One move of the outside world (20_memory R62 to R64, 70 R230). A move that is not allowed where it is met is not
made (log 2). -/
inductive EnvMove where
  /-- The answer to a call of `T.open` (R56). -/
  | grant (granted : Bool)
  /-- The answer to a call of `T.close` (R57). -/
  | status (st : Status)
  /-- The event COMPLETE (R62). -/
  | complete
  /-- The event ADDRNACK (R62). -/
  | addrNack
  /-- The event DEPOSIT(b) (R63). -/
  | deposit (b : Byte)
  /-- The addressed device takes the byte the data phase of a write sends: it overwrites the cell (R68). -/
  | store
  /-- The device register space changes by itself: the device, or another bus master (R54, R67, R246). -/
  | cell (dev reg b : Byte)
  /-- The reset input is asserted (R230); with a command in flight, together with the environment (R231). -/
  | reset
deriving DecidableEq, Repr, Inhabited

end Sys2Proof.Machine

namespace Sys2Proof.Config

/-- Register offset of the accelerometer control register (R8). -/
def accCtrlReg : Byte := 0x20
/-- Register offset of the magnetometer configuration register (R8). -/
def magCfgReg : Byte := 0x60
/-- First axis output register (R8). -/
def accOutFirst : Byte := 0x28
/-- Last axis output register (R8). -/
def accOutLast : Byte := 0x2D
/-- Accelerometer identity register and its expected value (R8). -/
def accIdReg : Byte := 0x0F
def accIdVal : Byte := 0x43
/-- Magnetometer identity register and its expected value (R8). -/
def magIdReg : Byte := 0x4F
def magIdVal : Byte := 0x40

/-- Device address of the accelerometer: OPEN (R8, D7). -/
opaque accDev : Byte
/-- Device address of the magnetometer: OPEN (R8, D7). -/
opaque magDev : Byte

/-- Largest ordinal of the accelerometer output-data-rate enumeration, `N_AODR - 1` (R8). -/
def odrLast : BitVec 4 := 10
/-- Index of 400 Hz (R8, R89). -/
def i400 : BitVec 4 := 6
/-- Index of 800 Hz (R8, R89). -/
def i800 : BitVec 4 := 7
/-- Index of 1600 Hz, `I800 + 1` (R8, R89). -/
def i1600 : BitVec 4 := i800 + 1

/-- Attempts of one read command (R8). -/
def rdAttempts : Fin 3 := 2
/-- Attempts of one write command (R8). -/
def wrAttempts : Fin 3 := 1
/-- Length of every buffer the block stages (R8, D9). -/
def bufLen : Nat := 1

/-- The transport's "no-error" code: OPEN (R8, D8). -/
opaque stNoErr : Status
/-- The raw choice behind `stBusy`: any code at all. -/
opaque stBusyChoice : Status
/-- The transport's "busy" code: OPEN, but different from `stNoErr` (R8, D8). DESIGN CHOICE (log 14): a raw choice that
collides with `stNoErr` is moved by one, so that every pair of different codes remains possible. -/
def stBusy : Status := if stBusyChoice = stNoErr then stNoErr + 1 else stBusyChoice

/-- The draws `any8()` (R11): the value of the n-th draw of a run. Nothing is known of it (log 7). -/
opaque any8 : Nat → Byte

/-- The moves of an environment of which nothing is known (00_scope R7, 20_memory R64; log 1): any sequence. -/
opaque anyMove : Nat → Machine.EnvMove

end Sys2Proof.Config
end

