-- ==== Sys2Proof/Syntax.lean ====
section
/-! DEFINITION. The six commands in the record form of 30_encoding R84, one constructor per row of
spec/opcode_table.json, and the enumerations of R88. -/

namespace Sys2Proof

/-- Accelerometer full scale, in the order the spec lists it (R88). -/
inductive Scale where
  | g2 | g4 | g8 | g16
deriving DecidableEq, Repr

/-- Accelerometer resolution (R88). -/
inductive Resolution where
  | r10 | r12 | r14
deriving DecidableEq, Repr

/-- Magnetometer mode (R88). -/
inductive MagMode where
  | continuous | single | idle
deriving DecidableEq, Repr

/-- Accelerometer output data rate, the document's odrIndex: a 4-bit ordinal of which 0 to 10 are members
(R88, R89); `WellFormed` checks the bound. The encoder masks and subtracts it (R111), so it stays a bit vector. -/
abbrev Odr := BitVec 4

/-- Magnetometer output data rate: all four ordinals are members, their names are not printed (R88). -/
abbrev MagOdr := BitVec 2

/-- The commands (R84), operands in the table's order. -/
inductive Instr where
  /-- ENCA: encode an accelerometer configuration (R113). -/
  | enca (scale : Scale) (res : Resolution) (odr : Odr)
  /-- ENCM: encode a magnetometer configuration (R118). -/
  | encm (mode : MagMode) (modr : MagOdr)
  /-- WR: write one device register (R150). -/
  | wr (dev reg val : Byte)
  /-- RD: read one device register (R153). -/
  | rd (dev reg : Byte)
  /-- CFGA: configure the accelerometer (R170). -/
  | cfga (scale : Scale) (res : Resolution) (odr : Odr)
  /-- CFGM: configure the magnetometer (R172). -/
  | cfgm (mode : MagMode) (modr : MagOdr)
deriving DecidableEq, Repr

end Sys2Proof
end

