-- ==== Sys2Proof/WellFormed.lean ====
section
/-! DEFINITION. Which command records spell a command: the field checks of 30_encoding R84. `res <= 2` and `mode <= 2`
hold by the types `Resolution` and `MagMode`; `odr <= 10` is the check that is left. -/

namespace Sys2Proof

/-- `odr` is a member of its enumeration (R84, R89). -/
def odrMember (odr : Odr) : Bool := decide (odr ≤ Config.odrLast)

/-- The field checks of the command's row (R84). -/
def WellFormed : Instr → Bool
  | .enca _ _ odr => odrMember odr
  | .encm _ _ => true
  | .wr _ _ _ => true
  | .rd _ _ => true
  | .cfga _ _ odr => odrMember odr
  | .cfgm _ _ => true

end Sys2Proof
end

