-- ==== Sys2Proof/Decode.lean ====
section
/-! DEFINITION. Command words: the ordinals of 30_encoding R88, the rows of R84, the decoder of R85 (total, three named
reasons to refuse) and the encoder written from the same table. -/

namespace Sys2Proof

/-! ## Ordinals (R88) -/

/-- Ordinal of a scale. -/
def Scale.ordinal : Scale → BitVec 2
  | .g2 => 0
  | .g4 => 1
  | .g8 => 2
  | .g16 => 3

/-- The scale of an ordinal: all four are members. -/
def Scale.ofOrdinal (v : BitVec 2) : Scale :=
  if v = 0 then .g2 else if v = 1 then .g4 else if v = 2 then .g8 else .g16

/-- Ordinal of a resolution. -/
def Resolution.ordinal : Resolution → BitVec 2
  | .r10 => 0
  | .r12 => 1
  | .r14 => 2

/-- The resolution of an ordinal: 3 spells no member. -/
def Resolution.ofOrdinal (v : BitVec 2) : Option Resolution :=
  if v = 0 then some .r10 else if v = 1 then some .r12 else if v = 2 then some .r14 else none

/-- Ordinal of a magnetometer mode. -/
def MagMode.ordinal : MagMode → BitVec 2
  | .continuous => 0
  | .single => 1
  | .idle => 2

/-- The mode of an ordinal: 3 spells no member. -/
def MagMode.ofOrdinal (v : BitVec 2) : Option MagMode :=
  if v = 0 then some .continuous else if v = 1 then some .single else if v = 2 then some .idle else none

/-! ## The opcode table (R84) -/

/-- The six assigned opcodes. -/
inductive Opcode where
  | enca | encm | wr | rd | cfga | cfgm
deriving DecidableEq, Repr

/-- The fixed bits of a row: a word has them when `w &&& mask = pattern` (R84). -/
structure Row where
  opcode : Opcode
  op : BitVec 4
  pattern : Word32
  mask : Word32
deriving DecidableEq, Repr

/-- The row of an opcode (R84). -/
def Opcode.row : Opcode → Row
  | .enca => ⟨.enca, 0x1, 0x10000000, 0xFFFFFF00⟩
  | .encm => ⟨.encm, 0x2, 0x20000000, 0xFFFFFFF0⟩
  | .wr => ⟨.wr, 0x3, 0x30000000, 0xFF000000⟩
  | .rd => ⟨.rd, 0x4, 0x40000000, 0xFF0000FF⟩
  | .cfga => ⟨.cfga, 0x5, 0x50000000, 0xFFFFFF00⟩
  | .cfgm => ⟨.cfgm, 0x6, 0x60000000, 0xFFFFFFF0⟩

/-- The table, in the order of R84. -/
def opcodeTable : List Row :=
  [Opcode.enca.row, Opcode.encm.row, Opcode.wr.row, Opcode.rd.row, Opcode.cfga.row, Opcode.cfgm.row]

/-- The opcode an `op` field selects (R85 step 1): 0x0 and 0x7 to 0xF are unassigned. -/
def Opcode.ofBits (op : BitVec 4) : Option Opcode :=
  if op = 0x1 then some .enca
  else if op = 0x2 then some .encm
  else if op = 0x3 then some .wr
  else if op = 0x4 then some .rd
  else if op = 0x5 then some .cfga
  else if op = 0x6 then some .cfgm
  else none

/-! ## Fields (R81), each used as the unsigned number it spells -/

def fieldOp (w : Word32) : BitVec 4 := w.extractLsb' 28 4
def fieldDev (w : Word32) : Byte := w.extractLsb' 16 8
def fieldReg (w : Word32) : Byte := w.extractLsb' 8 8
def fieldVal (w : Word32) : Byte := w.extractLsb' 0 8
def fieldOdr (w : Word32) : Odr := w.extractLsb' 4 4
def fieldScale (w : Word32) : BitVec 2 := w.extractLsb' 2 2
def fieldRes (w : Word32) : BitVec 2 := w.extractLsb' 0 2
def fieldModr (w : Word32) : MagOdr := w.extractLsb' 2 2
def fieldMode (w : Word32) : BitVec 2 := w.extractLsb' 0 2

/-! ## Decoding (R85) -/

/-- Why a word spells no command (R85, R91). -/
inductive DecodeError where
  /-- Step 1: the opcode is not assigned. -/
  | unassignedOpcode
  /-- Step 2: a zero field is not zero. -/
  | nonZeroField
  /-- Step 3: a field spells no member of its enumeration. -/
  | notAMember
deriving DecidableEq, Repr

/-- Operands of format A (ENCA, CFGA). -/
def accFields (w : Word32) : Option (Scale × Resolution × Odr) :=
  match Resolution.ofOrdinal (fieldRes w) with
  | some res => if odrMember (fieldOdr w) then some (Scale.ofOrdinal (fieldScale w), res, fieldOdr w) else none
  | none => none

/-- Operands of format M (ENCM, CFGM). -/
def magFields (w : Word32) : Option (MagMode × MagOdr) :=
  match MagMode.ofOrdinal (fieldMode w) with
  | some mode => some (mode, fieldModr w)
  | none => none

/-- Steps 3 and 4: the field checks, then the command of the row. -/
def operandsOf (o : Opcode) (w : Word32) : Option Instr :=
  match o with
  | .enca => (accFields w).map fun f => .enca f.1 f.2.1 f.2.2
  | .encm => (magFields w).map fun f => .encm f.1 f.2
  | .wr => some (.wr (fieldDev w) (fieldReg w) (fieldVal w))
  | .rd => some (.rd (fieldDev w) (fieldReg w))
  | .cfga => (accFields w).map fun f => .cfga f.1 f.2.1 f.2.2
  | .cfgm => (magFields w).map fun f => .cfgm f.1 f.2

/-- Decoding, total on any 32-bit word (R85). -/
def decode (w : Word32) : Except DecodeError Instr :=
  match Opcode.ofBits (fieldOp w) with
  | none => .error .unassignedOpcode
  | some o =>
    if w &&& o.row.mask = o.row.pattern then
      match operandsOf o w with
      | some i => .ok i
      | none => .error .notAMember
    else .error .nonZeroField

/-! ## Encoding (R81, R84) -/

/-- Format A. -/
def formatA (op : BitVec 4) (scale : Scale) (res : Resolution) (odr : Odr) : Word32 :=
  op ++ (0 : BitVec 20) ++ odr ++ scale.ordinal ++ res.ordinal

/-- Format M. -/
def formatM (op : BitVec 4) (mode : MagMode) (modr : MagOdr) : Word32 :=
  op ++ (0 : BitVec 24) ++ modr ++ mode.ordinal

/-- Format T. -/
def formatT (op : BitVec 4) (dev reg val : Byte) : Word32 :=
  op ++ (0 : BitVec 4) ++ dev ++ reg ++ val

/-- The word of a command. -/
def encode : Instr → Word32
  | .enca scale res odr => formatA 0x1 scale res odr
  | .encm mode modr => formatM 0x2 mode modr
  | .wr dev reg val => formatT 0x3 dev reg val
  | .rd dev reg => formatT 0x4 dev reg 0
  | .cfga scale res odr => formatA 0x5 scale res odr
  | .cfgm mode modr => formatM 0x6 mode modr

/-- The row a command is encoded by. -/
def opcodeOf : Instr → Opcode
  | .enca _ _ _ => .enca
  | .encm _ _ => .encm
  | .wr _ _ _ => .wr
  | .rd _ _ => .rd
  | .cfga _ _ _ => .cfga
  | .cfgm _ _ => .cfgm

/-! ## Table words -/

/-- The command word whose low `nbits` bits are those of `w`, the bits above zero. -/
def tableWord (nbits w : Nat) : Word32 := BitVec.ofNat 32 (w % 2 ^ nbits)

/-- What the decoder reads from a table word (bit 0 is the least significant bit of `cmd_word`). -/
def decodeTableWord (nbits w : Nat) : Option Instr :=
  match decode (tableWord nbits w) with
  | .ok i => some i
  | .error _ => none

end Sys2Proof
end

