-- ==== Sys2Proof/Machine/State.lean ====
section
/-! DEFINITION. The state of the machine: the ten registers of 10_state R20, the state of the environment the spec names
(device register space, armed buffer), the ports, and the coming moves of host and environment. Plain data. -/

namespace Sys2Proof.Machine

/-- The phase register `PH`: six values, no numeric encoding a host can see (R24). -/
inductive Phase where
  | idle | busAcquired | addressPhaseSent | dataPhaseReceived | dataPhaseSent | closed
deriving DecidableEq, Repr

/-- The completion handler mirror `CBH` (R26). -/
inductive CompletionHandler where
  | none | wrStage | rdStage
deriving DecidableEq, Repr

/-- The address-NACK handler mirror `NAH` (R27). -/
inductive NackHandler where
  | none | retry
deriving DecidableEq, Repr

/-- The block registers a port call can name as a buffer or a context (R58, R59). -/
inductive Buffer where
  | abuf | dbuf
deriving DecidableEq, Repr

/-- The block's answers to events (R62): CONTINUE, RESTART_READ, FINISH, NACK_RETRY. -/
inductive Signal where
  | continueWrite | restartRead | finish | nackRetry
deriving DecidableEq, Repr

/-- One item of the transport port: a primitive call with its answer (R56 to R61), an event (R62, R63), or the block's
answer to an event (R62). The notation of 95_test_vectors section 0, one constructor each. -/
inductive PortItem where
  | tOpen (dev : Byte) (granted : Bool)
  | tSetbuf (buf : Buffer) (len : Nat)
  | tSetcb (handler : CompletionHandler) (ctx : Buffer)
  | tSetnack (handler : NackHandler)
  | tStart
  | tClose (st : Status)
  | complete
  | addrNack
  | deposit (b : Byte)
  | answer (signal : Signal)
deriving DecidableEq, Repr

/-- `kind` of a result (R86). -/
inductive Kind where
  | done | invalidConfiguration | illegalCommand
deriving DecidableEq, Repr

/-- A result record (R86). -/
structure Result where
  kind : Kind
  tstatus : Status
  data : Byte
deriving DecidableEq, Repr

/-- What the outside world does after the moves that are written out (log 1). -/
inductive Beyond where
  /-- Nothing: it gives its waiting answer for ever. -/
  | silent
  /-- The same moves over and over. -/
  | cycle (first : EnvMove) (others : List EnvMove)
  /-- Any moves at all, without end: free values, from the `n`-th on. -/
  | free (n : Nat)
deriving DecidableEq, Repr

/-- The environment as the block meets it: the sequence of its moves (00_scope R7, 20_memory R64), finite or endless. -/
structure Environment where
  coming : List EnvMove
  beyond : Beyond
deriving DecidableEq, Repr

/-- The device register space (R50): cells listed by address, in the canonical form of `Memory.wf`. -/
abbrev Memory := List Host.Cell

/-- The state of the machine. The field names in capitals in the docstrings are those of R20. -/
structure State where
  /-- `DEV`: device address of the command in flight. -/
  dev : Byte
  /-- `ABUF`: register offset, the buffer of the address phase. -/
  abuf : Byte
  /-- `DBUF`: data byte, the buffer of the data phase. -/
  dbuf : Byte
  /-- `LST`: the most recent non-busy answer of `T.close`. -/
  lst : Status
  /-- `PH`: where the attempt in flight stands. -/
  ph : Phase
  /-- `ATT`: attempts remaining. -/
  att : Fin 3
  /-- `CBH`: completion handler installed. -/
  cbh : CompletionHandler
  /-- `NAH`: address-NACK handler installed. -/
  nah : NackHandler
  /-- `BSY`: a command is in flight. -/
  bsy : Bool
  /-- `OPC`: opcode of the command in flight. -/
  opc : BitVec 4
  /-- The device register space (R50), outside the block. -/
  mem : Memory
  /-- The buffer the transport has armed (R39 (b), R58), outside the block. -/
  armed : Option Buffer
  /-- The attempt in flight has had its DEPOSIT (R63), outside the block. -/
  deposited : Bool
  /-- What the host puts on the command port, one entry a ready step: a word, or nothing (R80). -/
  host : List (Option Word32)
  /-- The coming moves of the outside world (R7, R64; log 1). -/
  env : Environment
  /-- The result port in the latest step (R86). -/
  res : Option Result
  /-- The transport port in the latest step (R55). -/
  port : List PortItem
  /-- How many draws `any8()` have been made (R11). -/
  draws : Nat
deriving DecidableEq, Repr

/-- Reasons to stop with a fault: there is none. The block has no fault state (00_scope R12, 60 R207): an error is the
result record of one command, and a wait that never ends is an infinite run. -/
inductive Fault where
deriving DecidableEq, Repr

/-- Reasons to refuse. -/
inductive Refusal where
  /-- The instruction has no meaning in this model. Raised by an arm of `exec` only; safe. No arm raises it. -/
  | notModelled (mnemonic : String)
deriving DecidableEq, Repr

/-- The outcome of a step of this machine. -/
abbrev Outcome := Host.Outcome State Fault Refusal

/-- What one turn of the machine is: the command on the port is accepted and runs, or the machine moves without one. -/
inductive Turn where
  | run (i : Instr) (s : State)
  | quiet (s : State)
deriving Repr

/-- The state after reset (10_state R42). The registers R42 leaves unspecified hold 0, DESIGN CHOICE (log 5); the device
register space lists no cell, the transport is idle, the host presents nothing, and nothing is known of the moves of the
environment. -/
def State.reset : State where
  dev := 0
  abuf := 0
  dbuf := 0
  lst := 0
  ph := .idle
  att := 0
  cbh := .none
  nah := .none
  bsy := false
  opc := 0
  mem := []
  armed := none
  deposited := false
  host := []
  env := ⟨[], .free 0⟩
  res := none
  port := []
  draws := 0

end Sys2Proof.Machine
end

