-- ==== Sys2Proof/Machine/Ops.lean ====
section
/-! DEFINITION. The operations every command and event is written over: the device register space, the ports, loading the
command latch, draws, raising an error, and reset. -/

namespace Sys2Proof.Machine

/-! ## Device register space (20_memory R50) -/

/-- The key of the cell `(dev, reg)`: 256 offsets per device. -/
def cellAddr (dev reg : Byte) : Nat := dev.toNat * 256 + reg.toNat

/-- Canonical form: addresses strictly rising and inside the 65536 pairs (R51). An unlisted cell has no known content,
so no entry can equal it (log 11). -/
abbrev Memory.wf (m : Memory) : Prop := m.Pairwise (fun c d => c.1 < d.1) ∧ ∀ c ∈ m, c.1 < 65536

/-- The content of a cell, if it is known: the reset content of every cell is any value (R42, R54). -/
def Memory.read : Memory → Nat → Option Byte
  | [], _ => none
  | c :: rest, a => if a = c.1 then some c.2 else Memory.read rest a

/-- Overwrite one cell. -/
def Memory.write : Memory → Nat → Byte → Memory
  | [], a, b => [(a, b)]
  | c :: rest, a, b =>
    if a < c.1 then (a, b) :: c :: rest
    else if a = c.1 then (a, b) :: rest
    else c :: Memory.write rest a b

/-! ## Ports -/

/-- A step that drives the transport port with `items` and produces no result. -/
def State.say (items : List PortItem) (s : State) : State := { s with port := items, res := none }

/-- A step that produces a result and makes no port call (30_encoding R86). -/
def State.emit (r : Result) (s : State) : State := { s with port := [], res := some r }

/-! ## Moves of the environment (20_memory R64) -/

/-- The next move of what comes after the moves written out. -/
def Beyond.move : Beyond → Option EnvMove
  | .silent => none
  | .cycle first _ => some first
  | .free n => some (Config.anyMove n)

/-- What is left of it after that move. -/
def Beyond.next : Beyond → Beyond
  | .silent => .silent
  | .cycle first [] => .cycle first []
  | .cycle first (m :: others) => .cycle m (others ++ [first])
  | .free n => .free (n + 1)

/-- The next move of the environment; none where it is silent from here on. -/
def Environment.move (e : Environment) : Option EnvMove :=
  match e.coming with
  | m :: _ => some m
  | [] => e.beyond.move

/-- The environment after its next move. -/
def Environment.next (e : Environment) : Environment :=
  match e.coming with
  | _ :: rest => { e with coming := rest }
  | [] => { e with beyond := e.beyond.next }

/-- The environment's next move is used up. -/
def State.pop (s : State) : State := { s with env := s.env.next }

/-! ## Results and errors -/

/-- `Result(DONE, tstatus, data)`. -/
def Result.done (tstatus : Status) (data : Byte) : Result := ⟨.done, tstatus, data⟩

/-- `raise <Exception>` (00_scope R11; 60 R201, R202, R207): the result record of the error and nothing else. There is no
return from an error (R208): the next command is accepted as if this one had never been presented. -/
def raiseError (kind : Kind) (s : State) : State := s.emit ⟨kind, 0, 0⟩

/-- `Result` of a command in flight: emitting it clears `BSY` (R28, R86). -/
def State.finishWith (r : Result) (s : State) : State := { s with port := [], res := some r, bsy := false }

/-! ## Command latch and draws -/

/-- Acceptance of a transaction command (10_state R28): the latch and the address registers. -/
def State.accept (op : BitVec 4) (attempts : Fin 3) (dev reg : Byte) (s : State) : State :=
  { s with bsy := true, opc := op, dev := dev, abuf := reg, att := attempts, port := [], res := none }

/-- Acceptance of a command that writes: the byte too (R23, R32). -/
def State.acceptWrite (op : BitVec 4) (dev reg val : Byte) (s : State) : State :=
  { s.accept op Config.wrAttempts dev reg with dbuf := val }

/-- Step S0 of a read attempt: `DBUF <- any8()` (42_transaction R131). -/
def State.drawDbuf (s : State) : State := { s with dbuf := Config.any8 s.draws, draws := s.draws + 1 }

/-- One attempt fewer (R25). At 0, which no attempt starts from, it stays 0 (log 15). -/
def attemptUsed (n : Fin 3) : Fin 3 := ⟨n.val - 1, by omega⟩

/-! ## Reset (70 R230, R231) -/

/-- The registers of the block at reset (10_state R42): what R42 leaves unspecified is drawn (log 6). No result, no port
call (R230). -/
def State.resetBlock (s : State) : State :=
  { s with
    dev := Config.any8 s.draws
    abuf := Config.any8 (s.draws + 1)
    dbuf := Config.any8 (s.draws + 2)
    lst := Config.any8 (s.draws + 3)
    opc := (Config.any8 (s.draws + 4)).setWidth 4
    ph := .idle
    att := 0
    cbh := .none
    nah := .none
    bsy := false
    port := []
    res := none
    draws := s.draws + 5 }

/-- Reset of the block together with its environment (R231), the form taken with a command in flight: the transport
forgets the attempt and the content of every cell is any value again (R42). -/
def State.resetAll (s : State) : State := { s.resetBlock with mem := [], armed := none, deposited := false }

end Sys2Proof.Machine
end

