-- ==== Sys2Proof/Machine/Operands.lean ====
section
/-! DEFINITION. The Register Encoder as functions of the operands: `ValidAcc`, `EncAcc`, `EncMag` (41_encoder R111, R112,
R116), and the fixed target register of a configuration (R110, R173). -/

namespace Sys2Proof.Machine

/-- `ValidAcc(res, odr)` (R112), for `odr` in 0 to 10; the comparisons are unsigned (R115). -/
def validAcc (res : Resolution) (odr : Odr) : Bool :=
  match res with
  | .r10 => decide (odr ≤ Config.i800)
  | .r12 => decide (Config.i1600 ≤ odr)
  | .r14 => decide (odr ≤ Config.i800)

/-- The ODR code of a valid pair (R111). -/
def odrCode (res : Resolution) (odr : Odr) : BitVec 4 :=
  match res with
  | .r10 => 0x8 ||| odr
  | .r12 => odr - 3
  | .r14 => odr

/-- The high-frequency-ODR flag (R111). -/
def hfFlag (res : Resolution) : BitVec 1 :=
  match res with
  | .r10 => 0
  | .r12 => 1
  | .r14 => 0

/-- `EncAcc(scale, res, odr)` (R111): [ODR code:4][scale:2][HF-ODR flag:1][reserved:1]. -/
def encAcc (scale : Scale) (res : Resolution) (odr : Odr) : Byte :=
  ((odrCode res odr).setWidth 8 <<< 4) ||| (scale.ordinal.setWidth 8 <<< 2) ||| ((hfFlag res).setWidth 8 <<< 1)

/-- `EncMag(mode, modr)` (R116): bit 7 set, bits 6 to 4 clear, the rate in bits 3:2, the mode in bits 1:0. -/
def encMag (mode : MagMode) (modr : MagOdr) : Byte :=
  0x80 ||| (modr.setWidth 8 <<< 2) ||| mode.ordinal.setWidth 8

/-- The cell CFGA writes: device address and register offset (R52, R173). -/
def accTarget : Byte × Byte := (Config.accDev, Config.accCtrlReg)

/-- The cell CFGM writes (R52, R173). -/
def magTarget : Byte × Byte := (Config.magDev, Config.magCfgReg)

end Sys2Proof.Machine
end

