-- ==== Sys2Proof/Machine/Flags.lean ====
section
/-! DEFINITION. The block has no flags (10_state R30). What stands in their place: the handshake and port signals, which
are functions of the state, and the words they carry. -/

namespace Sys2Proof.Machine

/-- `cmd_ready` (30_encoding R80). -/
def State.cmdReady (s : State) : Bool := !s.bsy

/-- The word on the command port, if `cmd_valid` (R80). -/
def State.cmdWord (s : State) : Option Word32 := s.host.head?.join

/-- Bus ownership (R39 (a)): a function of `PH`. -/
def Phase.ownsBus : Phase → Bool
  | .idle => false
  | .busAcquired => true
  | .addressPhaseSent => true
  | .dataPhaseReceived => true
  | .dataPhaseSent => true
  | .closed => false

/-- The three states in which a transfer is in progress, between `T.start` and the non-busy `T.close` (R62, R136). -/
def Phase.inTransfer : Phase → Bool
  | .idle => false
  | .busAcquired => false
  | .addressPhaseSent => true
  | .dataPhaseReceived => true
  | .dataPhaseSent => true
  | .closed => false

/-- The block owns the bus (R39 (a)). -/
def State.ownsBus (s : State) : Bool := s.ph.ownsBus

/-- The command in flight is RD; every other transaction command writes (R131). -/
def State.isRead (s : State) : Bool := decide (s.opc = 0x4#4)

/-- Code of a kind (R86). -/
def Kind.code : Kind → BitVec 2
  | .done => 0
  | .invalidConfiguration => 1
  | .illegalCommand => 2

/-- The result word (R86). -/
def Result.word (r : Result) : Word32 := (0 : BitVec 14) ++ r.kind.code ++ r.tstatus ++ r.data

/-- `res_valid` (R86). -/
def State.resValid (s : State) : Bool := s.res.isSome

/-- `res_word` (R86); all zeros while `res_valid` is false. -/
def State.resWord (s : State) : Word32 :=
  match s.res with
  | some r => r.word
  | none => 0

end Sys2Proof.Machine
end

