-- ==== Sys2Proof/Machine/Encoder.lean ====
section
/-! DEFINITION. The Register Encoder commands (41_encoder): pure, no port call, no register read or written (R110). -/

namespace Sys2Proof.Machine

/-- ENCA (R113). The first test refuses an ordinal outside the enumeration, which no decoded command carries (R85). -/
def execEnca (scale : Scale) (res : Resolution) (odr : Odr) (s : State) : Outcome :=
  if odrMember odr then
    if validAcc res odr then .next (s.emit (.done 0 (encAcc scale res odr)))
    else .next (raiseError .invalidConfiguration s)
  else .next (raiseError .illegalCommand s)

/-- ENCM (R118). -/
def execEncm (mode : MagMode) (modr : MagOdr) (s : State) : Outcome :=
  .next (s.emit (.done 0 (encMag mode modr)))

end Sys2Proof.Machine
end

