-- ==== Sys2Proof/Machine/Transaction.lean ====
section
/-! DEFINITION. The Transaction Engine (42_transaction): WR and RD, which load the command latch, and the attempt they
start: one port call, event or internal step at a time (R131, R136, R157). -/

namespace Sys2Proof.Machine

/-! ## The commands: acceptance -/

/-- WR (R150): acceptance. The attempt follows in steps of its own. -/
def execWr (dev reg val : Byte) (s : State) : Outcome := .next (s.acceptWrite 0x3#4 dev reg val)

/-- RD (R153): acceptance, and step S0 of the first attempt (R131; log 10). -/
def execRd (dev reg : Byte) (s : State) : Outcome := .next (s.accept 0x4#4 Config.rdAttempts dev reg).drawDbuf

/-! ## Acquisition: S1 (R132) -/

/-- One call of `T.open(DEV)` answered `granted` (R56). -/
def openCall (granted : Bool) (s : State) : State :=
  { s.say [.tOpen s.dev granted] with ph := if granted then .busAcquired else s.ph }

/-- The environment's answer to `T.open`: false unless the move at hand grants (log 2). -/
def openAnswer : Option EnvMove → Bool
  | some (.grant g) => g
  | _ => false

/-- The step S1. -/
def acquire (s : State) : State := openCall (openAnswer s.env.move) s.pop

/-! ## Set-up and initiation: S2 to S5 (R133) -/

/-- The handler of the attempt (S3). -/
def stageHandler (s : State) : CompletionHandler := if s.isRead then .rdStage else .wrStage

/-- S2: `T.setbuf(ABUF, 1)` (R58). -/
def setBuf (s : State) : State := { s.say [.tSetbuf .abuf Config.bufLen] with armed := some .abuf }

/-- S3: `T.setcb(h, DBUF)` (R59). -/
def setCb (s : State) : State := { s.say [.tSetcb (stageHandler s) .dbuf] with cbh := stageHandler s }

/-- S4: `T.setnack(RETRY, none)` (R60). -/
def setNack (s : State) : State := { s.say [.tSetnack .retry] with nah := .retry }

/-- S5: `T.start()` (R61). No byte has been deposited in this attempt (R63). -/
def start (s : State) : State := { s.say [.tStart] with ph := .addressPhaseSent, deposited := false }

/-- The next of the four steps: what has been done shows in the armed buffer and the two handler mirrors (log 8). -/
def setUp (s : State) : State :=
  if s.armed = none then setBuf s
  else if s.cbh = .none then setCb s
  else if s.nah = .none then setNack s
  else start s

/-! ## Transfer: S6, S7 and the events (R134, R137, R140, R141) -/

/-- One call of `T.close()` answered busy (R57, S6): nothing changes. -/
def busyPoll (s : State) : State := s.say [.tClose Config.stBusy]

/-- One call of `T.close()` answered `st` (R57): busy changes nothing (S6), any other code closes the attempt (S7). -/
def closeCall (st : Status) (s : State) : State :=
  if st = Config.stBusy then busyPoll s
  else { s.say [.tClose st] with lst := st, ph := .closed, cbh := .none, nah := .none, armed := none }

/-- The handler fires: the buffer is re-armed and the phase changes (R140). -/
def handlerFires (ph : Phase) (signal : Signal) (s : State) : State :=
  { s.say [.complete, .tSetbuf .dbuf Config.bufLen, .answer signal] with armed := some .dbuf, cbh := .none, ph := ph }

/-- The COMPLETE event (R140). -/
def onComplete (s : State) : State :=
  match s.cbh with
  | .wrStage => handlerFires .dataPhaseSent .continueWrite s
  | .rdStage => handlerFires .dataPhaseReceived .restartRead s
  | .none => s.say [.complete, .answer .finish]

/-- The ADDRNACK event (R141), raised to an installed handler; otherwise it is not raised and the poll finds busy. -/
def onAddrNack (s : State) : State :=
  if s.nah = .retry then s.say [.addrNack, .answer .nackRetry] else busyPoll s

/-- DEPOSIT(b) is allowed only in the data phase of a read and once per attempt (R63). -/
def depositAllowed (s : State) : Bool := decide (s.ph = .dataPhaseReceived) && !s.deposited

/-- The DEPOSIT event (R63). -/
def onDeposit (b : Byte) (s : State) : State :=
  if depositAllowed s then { s.say [.deposit b] with dbuf := b, deposited := true } else busyPoll s

/-- The cell the command in flight addresses (R150, R153). -/
def target (s : State) : Nat := cellAddr s.dev s.abuf

/-- The device takes the byte sent in the data phase of a write (R68, premise P4): the addressed cell holds `DBUF`. -/
def onStore (s : State) : State :=
  if s.ph = .dataPhaseSent then { s.say [] with mem := s.mem.write (target s) s.dbuf } else busyPoll s

/-- A step with a transfer in progress: the event the environment raises, or the poll `T.close` with its answer; busy
when the environment answers nothing (log 1, log 2). -/
def transfer (s : State) : State :=
  match s.env.move with
  | some .complete => onComplete s.pop
  | some .addrNack => onAddrNack s.pop
  | some (.deposit b) => onDeposit b s.pop
  | some .store => onStore s.pop
  | some (.status st) => closeCall st s.pop
  | _ => busyPoll s.pop

/-! ## Closing: S8 and the command's continuation (R137, R150, R153) -/

/-- S8: back to `Idle`, one attempt fewer. -/
def attemptEnds (s : State) : State := { s.say [] with ph := .idle, att := attemptUsed s.att }

/-- WR, CFGA, CFGM: the status is the result, whatever it is (R150, R151). -/
def finishWrite (s : State) : State := (attemptEnds s).finishWith (.done s.lst 0)

/-- RD (R153 to R155): the byte on a clean status; otherwise the second attempt, which begins with S0; after it, an
unspecified byte. -/
def finishRead (s : State) : State :=
  if s.lst = Config.stNoErr then { (attemptEnds s).finishWith (.done s.lst s.dbuf) with att := 0 }
  else if attemptUsed s.att = 0 then
    { (attemptEnds s).finishWith (.done s.lst (Config.any8 s.draws)) with draws := s.draws + 1 }
  else (attemptEnds s).drawDbuf

/-- The step Finish (R157). -/
def finish (s : State) : State := if s.isRead then finishRead s else finishWrite s

/-! ## One step with a command in flight -/

/-- The block's turn in an attempt (R157): which step is enabled is a function of the state. -/
def attemptStep (s : State) : State :=
  match s.ph with
  | .idle => acquire s
  | .busAcquired => setUp s
  | .addressPhaseSent => transfer s
  | .dataPhaseReceived => transfer s
  | .dataPhaseSent => transfer s
  | .closed => finish s

/-- The device register space changes by itself (R54, R67, R246). -/
def cellChanges (dev reg b : Byte) (s : State) : State := { s.say [] with mem := s.mem.write (cellAddr dev reg) b }

/-- A step with `BSY = 1`: a move of the outside world that needs no answer of the block comes first (log 3), then the
attempt moves on. The command port is not looked at (R80). -/
def busyStep (s : State) : State :=
  match s.env.move with
  | some (.cell dev reg b) => cellChanges dev reg b s.pop
  | some .reset => s.pop.resetAll
  | _ => attemptStep s

/-- A step with `BSY = 0` and no command presented: the block waits (R230); the outside world may move. Answers and events
of a transfer stay for the transfer they belong to (duty E2). -/
def idleStep (s : State) : State :=
  match s.env.move with
  | some (.cell dev reg b) => cellChanges dev reg b s.pop
  | some .reset => s.pop.resetBlock
  | _ => s.say []

end Sys2Proof.Machine
end

