-- ==== Sys2Proof/Machine/Configure.lean ====
section
/-! DEFINITION. The configure commands (43_configure): the encoder, then the write transaction on the fixed target
register (R173). -/

namespace Sys2Proof.Machine

/-- CFGA (R170): acceptance as a write of the encoded byte; an invalid configuration stops before anything is loaded. -/
def execCfga (scale : Scale) (res : Resolution) (odr : Odr) (s : State) : Outcome :=
  if odrMember odr then
    if validAcc res odr then .next (s.acceptWrite 0x5#4 accTarget.1 accTarget.2 (encAcc scale res odr))
    else .next (raiseError .invalidConfiguration s)
  else .next (raiseError .illegalCommand s)

/-- CFGM (R172). -/
def execCfgm (mode : MagMode) (modr : MagOdr) (s : State) : Outcome :=
  .next (s.acceptWrite 0x6#4 magTarget.1 magTarget.2 (encMag mode modr))

end Sys2Proof.Machine
end

