-- ==== Sys2Proof/Machine/Fetch.lean ====
section
/-! DEFINITION. The command port (30_encoding R80): whose turn it is, and the word the block accepts. -/

namespace Sys2Proof.Machine

/-- The host's entry at the head of the command port is used up. -/
def State.popHost (s : State) : State := { s with host := s.host.tail }

/-- An accepted word (R85): a command to run, or a refusal by its result (60 R202). -/
def acceptWord (w : Word32) (s : State) : Turn :=
  match decode w with
  | .ok i => .run i s
  | .error _ => .quiet (raiseError .illegalCommand s)

/-- The next turn: with `BSY = 1` the attempt in flight; with `BSY = 0` the word on the port, if there is one (R80). -/
def nextTurn (s : State) : Turn :=
  if s.bsy then .quiet (busyStep s)
  else
    match s.cmdWord with
    | some w => acceptWord w s.popHost
    | none => .quiet (idleStep s.popHost)

/-- The host presents `w` before anything else, and the port is ready to take it. -/
def presentWord (w : Word32) (s : State) : State := { s with bsy := false, host := some w :: s.host }

end Sys2Proof.Machine
end

