-- ==== Sys2Proof/Machine/Dispatch.lean ====
section
/-! DEFINITION. One arm per command: exec is the step in which an accepted command runs (42_transaction R157, Accept). -/

namespace Sys2Proof.Machine

def exec (i : Instr) (s : State) : Host.Outcome State Fault Refusal :=
  match i with
  | .enca scale res odr => Sys2Proof.Machine.execEnca scale res odr s
  | .encm mode modr => Sys2Proof.Machine.execEncm mode modr s
  | .wr dev reg val => Sys2Proof.Machine.execWr dev reg val s
  | .rd dev reg => Sys2Proof.Machine.execRd dev reg s
  | .cfga scale res odr => Sys2Proof.Machine.execCfga scale res odr s
  | .cfgm mode modr => Sys2Proof.Machine.execCfgm mode modr s

end Sys2Proof.Machine
end

