-- ==== Sys2Proof/Machine/Step.lean ====
section
/-! DEFINITION. One step of the machine: the command taken from the port, or the move of the attempt in flight. -/

namespace Sys2Proof.Machine

/-- One atomic step (42_transaction R157). -/
def step (s : State) : Host.Outcome State Fault Refusal :=
  match nextTurn s with
  | .run i t => exec i t
  | .quiet t => .next t

/-- `s` with a table word presented on the command port, ready to be taken (log 4). -/
def State.withFetchWord (s : State) (nbits w : Nat) : State := presentWord (tableWord nbits w) s

end Sys2Proof.Machine
end

