-- ==== Sys2Proof/Machine/Annex.lean ====
section
/-! DEFINITION. The software around the block (44_annex_decoder_identity): the Decoder and the identity checks. No command
uses it (00_scope R6); it is here so that what the spec fixes of it is not lost. -/

namespace Sys2Proof.Machine

/-- Sign extension (R181) of an `n`-bit raw value: `v` below half range, `v - 2^n` from there on. -/
def sext (n : Nat) (v : BitVec n) : Int := if v.toNat < 2 ^ (n - 1) then v.toNat else v.toNat - 2 ^ n

/-- The document's own form of R181, in a native integer of `width` bits: OR with the complement of `2^(n-1) - 1`. -/
def sextNative (n width : Nat) (v : BitVec n) : BitVec width :=
  if v.getLsbD (n - 1) then v.setWidth width ||| ~~~(BitVec.ofNat width (2 ^ (n - 1) - 1)) else v.setWidth width

/-- Axis assembly (R182): `(high << 8) | low` as 16-bit two's complement. -/
def axis (low high : Byte) : Int := sext 16 (high ++ low)

/-- RawSample (R183): the six bytes at 0x28 to 0x2D, low byte first. -/
def rawSample (b0 b1 b2 b3 b4 b5 : Byte) : Int × Int × Int := (axis b0 b1, axis b2 b3, axis b4 b5)

/-- The register offsets of axis `k` (R183): low byte, high byte. -/
def axisOffsets (k : Fin 3) : Byte × Byte :=
  (Config.accOutFirst + BitVec.ofNat 8 (2 * k.val), Config.accOutFirst + BitVec.ofNat 8 (2 * k.val + 1))

/-- Sensitivity in thousandths of a mg per LSB, the document's unit (R184). -/
def sensitivity : Scale → Nat
  | .g2 => 61
  | .g4 => 122
  | .g8 => 244
  | .g16 => 488

/-- Which of the two operations of `raw × sensitivity / 10` is made first (R185, U14: the spec leaves it to the reader). -/
inductive ScalingOrder where
  | multiplyFirst | divideFirst
deriving DecidableEq, Repr

/-- What R185 leaves open, and no more: the number format, by the value it gives an exact result; the rounding function, by
the integer it gives; and the order of evaluation. -/
structure NumberFormat where
  fit : ℚ → ℚ
  round : ℚ → Int
  order : ScalingOrder

/-- Multiplication in the format. -/
def NumberFormat.mul (f : NumberFormat) (x y : ℚ) : ℚ := f.fit (x * y)

/-- Division in the format. -/
def NumberFormat.div (f : NumberFormat) (x y : ℚ) : ℚ := f.fit (x / y)

/-- The sensitivity of a scale, mg per LSB (R184), in the format. -/
def NumberFormat.sensitivity (f : NumberFormat) (scale : Scale) : ℚ := f.fit ((Machine.sensitivity scale : ℚ) / 1000)

/-- `raw × sensitivity / 10` (R185). -/
def NumberFormat.scaled (f : NumberFormat) (raw : Int) (scale : Scale) : ℚ :=
  match f.order with
  | .multiplyFirst => f.div (f.mul (f.fit raw) (f.sensitivity scale)) 10
  | .divideFirst => f.mul (f.fit raw) (f.div (f.sensitivity scale) 10)

/-- Physical value (R185): `round(raw × sensitivity / 10) / 100`, the two-stage rounding. -/
def physicalValue (f : NumberFormat) (raw : Int) (scale : Scale) : ℚ := f.div (f.fit (f.round (f.scaled raw scale))) 100

/-- PhysicalSample (R187): each axis of a RawSample multiplied by the sensitivity of the scale, as R185 says. -/
def physicalSample (f : NumberFormat) (raw : Int × Int × Int) (scale : Scale) : ℚ × ℚ × ℚ :=
  (physicalValue f raw.1 scale, physicalValue f raw.2.1 scale, physicalValue f raw.2.2 scale)

/-- Temperature (R186). -/
def temperature (b : Byte) : Int := sext 8 b + 25

/-- Identity check (R190): online exactly on the expected byte. -/
def online (expected b : Byte) : Bool := decide (b = expected)

/-! ## The public surface built on RD (R191) -/

/-- The byte of a read's result, where it means something (70 R243, R188): after a failure it is a draw. -/
def Result.readByte (r : Result) : Option Byte :=
  if r.kind = .done ∧ r.tstatus = Config.stNoErr then some r.data else none

/-- read-temperature (R191): the read, on the device and offset the spec does not print (R186). -/
def temperatureRead (dev reg : Byte) : Instr := .rd dev reg

/-- read-temperature on the result: the status is carried through (R188). -/
def temperatureOf (r : Result) : Option Int := r.readByte.map temperature

/-- read-acceleration (R191, R183): six single-register reads, low byte before high byte, axis by axis. -/
def accelerationReads : List Instr :=
  [0, 1, 2].flatMap fun k => [.rd Config.accDev (axisOffsets k).1, .rd Config.accDev (axisOffsets k).2]

/-- read-acceleration on the six results (R182, R185, R188); nothing where one of the reads failed. -/
def accelerationOf (f : NumberFormat) (scale : Scale) (results : List Result) : Option (ℚ × ℚ × ℚ) :=
  match results.map Result.readByte with
  | [some b0, some b1, some b2, some b3, some b4, some b5] =>
    some (physicalSample f (rawSample b0 b1 b2 b3 b4 b5) scale)
  | _ => none

/-- The read of accelerometer-present (R190, R191). -/
def accPresenceRead : Instr := .rd Config.accDev Config.accIdReg

/-- The read of magnetometer-present (R190, R191). -/
def magPresenceRead : Instr := .rd Config.magDev Config.magIdReg

/-- accelerometer-present on the byte read (R190). -/
def accPresent (b : Byte) : Bool := online Config.accIdVal b

/-- magnetometer-present on the byte read (R190). -/
def magPresent (b : Byte) : Bool := online Config.magIdVal b

end Sys2Proof.Machine
end

