-- ==== Sys2Proof/Machine/Assembler.lean ====
section
/-! DEFINITION. The written form of commands (30_encoding R93): an operand is a numeral, an enumeration name standing for
its ordinal; the word is put together from the fields, so a numeral outside an enumeration gives the illegal word of R91. -/

namespace Sys2Proof.Machine

/-- A line of a program, every operand as the numeral it stands for, in the order of R93. -/
inductive Line where
  | enca (scale res odr : Nat)
  | encm (mode modr : Nat)
  | wr (dev reg val : Nat)
  | rd (dev reg : Nat)
  | cfga (scale res odr : Nat)
  | cfgm (mode modr : Nat)
deriving DecidableEq, Repr

/-- The line of a command. -/
def Line.ofInstr : Instr → Line
  | .enca scale res odr => .enca scale.ordinal.toNat res.ordinal.toNat odr.toNat
  | .encm mode modr => .encm mode.ordinal.toNat modr.toNat
  | .wr dev reg val => .wr dev.toNat reg.toNat val.toNat
  | .rd dev reg => .rd dev.toNat reg.toNat
  | .cfga scale res odr => .cfga scale.ordinal.toNat res.ordinal.toNat odr.toNat
  | .cfgm mode modr => .cfgm mode.ordinal.toNat modr.toNat

/-- A word from its fields, each placed at its lowest bit; nothing where a numeral does not fit its field. -/
def packWord (op : Nat) (fields : List (Nat × Nat × Nat)) : Option Word32 :=
  if fields.all fun f => decide (f.1 < 2 ^ f.2.1) then
    some (BitVec.ofNat 32 (op * 2 ^ 28 + (fields.map fun f => f.1 * 2 ^ f.2.2).sum))
  else none

/-- The word a line assembles to (R81, R93): numeral, width and lowest bit of every field. -/
def Line.assemble : Line → Option Word32
  | .enca scale res odr => packWord 1 [(odr, 4, 4), (scale, 2, 2), (res, 2, 0)]
  | .encm mode modr => packWord 2 [(modr, 2, 2), (mode, 2, 0)]
  | .wr dev reg val => packWord 3 [(dev, 8, 16), (reg, 8, 8), (val, 8, 0)]
  | .rd dev reg => packWord 4 [(dev, 8, 16), (reg, 8, 8)]
  | .cfga scale res odr => packWord 5 [(odr, 4, 4), (scale, 2, 2), (res, 2, 0)]
  | .cfgm mode modr => packWord 6 [(modr, 2, 2), (mode, 2, 0)]

/-- The aliases `odr400`, `odr800`, `odr1600` (R93). -/
def odr400 : Odr := Config.i400
def odr800 : Odr := Config.i800
def odr1600 : Odr := Config.i1600

end Sys2Proof.Machine
end

