-- ==== Sys2Proof/Machine/Devices.lean ====
section
/-! DEFINITION. What the spec fixes of the two devices behind the transport: the register map (20_memory R53) and the fields
of the two control registers (10_state R35, R36). The block compares no address with the map (R51) and holds no copy of a
device register (R34): no step uses this file. -/

namespace Sys2Proof.Machine

/-- The two devices the spec names. -/
inductive Device where
  | accelerometer | magnetometer
deriving DecidableEq, Repr

/-- The address of a device: a parameter (00_scope R8). -/
def Device.address : Device → Byte
  | .accelerometer => Config.accDev
  | .magnetometer => Config.magDev

/-- What the driver does with a register (R53). -/
inductive DriverAccess where
  | read | write
deriving DecidableEq, Repr

/-- A row of the map (R53): offsets `first` to `last`, and the identity byte the spec expects, where it gives one (R37). -/
structure MapRow where
  device : Device
  first : Byte
  last : Byte
  access : DriverAccess
  expected : Option Byte
deriving DecidableEq, Repr

/-- The map of R53, which does not claim to be complete. -/
def registerMap : List MapRow :=
  [⟨.accelerometer, Config.accIdReg, Config.accIdReg, .read, some Config.accIdVal⟩,
   ⟨.accelerometer, Config.accCtrlReg, Config.accCtrlReg, .write, none⟩,
   ⟨.accelerometer, Config.accOutFirst, Config.accOutLast, .read, none⟩,
   ⟨.magnetometer, Config.magIdReg, Config.magIdReg, .read, some Config.magIdVal⟩,
   ⟨.magnetometer, Config.magCfgReg, Config.magCfgReg, .write, none⟩]

/-! ## Accelerometer control register (R35) -/

/-- Bits 7:4, the ODR code. -/
def ctrlOdrCode (b : Byte) : BitVec 4 := b.extractLsb' 4 4
/-- Bits 3:2, the scale. -/
def ctrlScale (b : Byte) : BitVec 2 := b.extractLsb' 2 2
/-- Bit 1, the high-frequency-ODR flag. -/
def ctrlHf (b : Byte) : Bool := b.getLsbD 1
/-- Bit 0, reserved: always written 0. -/
def ctrlReserved (b : Byte) : Bool := b.getLsbD 0

/-! ## Magnetometer configuration register (R36) -/

/-- Bit 7, temperature-compensation enable: always written 1. -/
def cfgTempComp (b : Byte) : Bool := b.getLsbD 7
/-- Bits 6:5, not named: always written 0. -/
def cfgUnnamed (b : Byte) : BitVec 2 := b.extractLsb' 5 2
/-- Bit 4, high-resolution enable: always written 0. -/
def cfgHighRes (b : Byte) : Bool := b.getLsbD 4
/-- Bits 3:2, the output-data-rate index. -/
def cfgOdr (b : Byte) : BitVec 2 := b.extractLsb' 2 2
/-- Bits 1:0, the mode ordinal. -/
def cfgMode (b : Byte) : BitVec 2 := b.extractLsb' 0 2

end Sys2Proof.Machine
end

