-- ==== Sys2Proof/Safety.lean ====
section
/-! DEFINITION. What claims are stated in: the quiescent state, the invariant of 10_state R40, runs and their port traces,
environments as scripts of moves, and the relations of the equivalence and noninterference claims. -/

namespace Sys2Proof.Machine

/-! ## States -/

/-- The state every command starts and ends in (60 R207, 10_state R24). -/
def Quiescent (s : State) : Prop :=
  s.bsy = false ∧ s.ph = .idle ∧ s.att = 0 ∧ s.cbh = .none ∧ s.nah = .none

/-- The opcodes of the commands that write: WR, CFGA, CFGM. -/
def writeOpcode (op : BitVec 4) : Prop := op = 0x3#4 ∨ op = 0x5#4 ∨ op = 0x6#4

/-- The invariant. The first six clauses are 10_state R40 (`ATT ≤ 2` holds by type) and the canonical form of memory; the
others make it inductive and are read from 42_transaction R131 to R137. -/
structure Inv (s : State) : Prop where
  memory : s.mem.wf
  quiet : s.bsy = false → Quiescent s
  handlerPhase : s.cbh ≠ .none → s.ph = .busAcquired ∨ s.ph = .addressPhaseSent
  sentByWrite : s.ph = .dataPhaseSent → writeOpcode s.opc
  receivedByRead : s.ph = .dataPhaseReceived → s.opc = 0x4#4
  attempts : s.att ≤ 1 ∨ s.opc = 0x4#4
  latch : s.bsy = true → writeOpcode s.opc ∨ s.opc = 0x4#4
  attemptLeft : s.bsy = true → 1 ≤ s.att
  noAttempt : s.ph = .idle ∨ s.ph = .closed → s.cbh = .none ∧ s.nah = .none ∧ s.armed = none
  writeHandler : s.cbh = .wrStage → s.isRead = false
  readHandler : s.cbh = .rdStage → s.isRead = true
  settingUp : s.ph = .busAcquired →
    s.armed ≠ some .dbuf ∧ (s.armed = none → s.cbh = .none) ∧ (s.cbh = .none → s.nah = .none)
  addressPhase : s.ph = .addressPhaseSent → s.cbh ≠ .none ∧ s.armed = some .abuf ∧ s.deposited = false
  dataPhase : s.ph = .dataPhaseReceived ∨ s.ph = .dataPhaseSent → s.armed = some .dbuf
  nackHandler : s.ph.inTransfer = true → s.nah = .retry
  closedStatus : s.ph = .closed → s.lst ≠ Config.stBusy

/-! ## Runs -/

/-- The port items of `n` steps, in order. -/
def portTrace : Nat → State → List PortItem
  | 0, _ => []
  | n + 1, s =>
    match step s with
    | .next t => t.port ++ portTrace n t
    | .fault _ => []
    | .refused _ => []

/-- `n` steps lead from `s` to `t`. -/
def Reaches (n : Nat) (s t : State) : Prop := Sys2Proof.core.run n s = .next t

/-! ## Environments as sequences of moves -/

/-- A move that asserts reset. -/
def EnvMove.isReset : EnvMove → Bool
  | .reset => true
  | _ => false

/-- A move that is made whatever the block does (log 3). -/
def EnvMove.isAutonomous : EnvMove → Bool
  | .reset => true
  | .cell _ _ _ => true
  | _ => false

/-- A move that touches the device register space or resets it. -/
def EnvMove.touchesCells : EnvMove → Bool
  | .reset => true
  | .cell _ _ _ => true
  | .store => true
  | _ => false

/-- A deposit. -/
def EnvMove.isDeposit : EnvMove → Bool
  | .deposit _ => true
  | _ => false

/-- A move that leaves an acquisition waiting: anything but a grant or a reset. -/
def EnvMove.keepsWaiting : EnvMove → Bool
  | .reset => false
  | .grant true => false
  | _ => true

/-- A move that leaves a transfer in progress: anything but a non-busy status or a reset. -/
def EnvMove.keepsTransferring : EnvMove → Prop
  | .reset => False
  | .status st => st = Config.stBusy
  | _ => True

/-- No reset is the next move. -/
def NoResetNext (s : State) : Prop := s.env.move ≠ some .reset

/-- The next move, if any, waits for the block. -/
def NoMoveBefore (e : Environment) : Prop := ∀ m, e.move = some m → m.isAutonomous = false

/-- The environment makes these moves, and then is `rest`: whether they are written out, repeat, or are free. -/
def Environment.Begins : List EnvMove → Environment → Environment → Prop
  | [], e, rest => e = rest
  | m :: moves, e, rest => e.move = some m ∧ Environment.Begins moves e.next rest

/-- The environment after `n` moves. -/
def Environment.drop : Nat → Environment → Environment
  | 0, e => e
  | n + 1, e => Environment.drop n e.next

/-- Every move the environment will ever make has the property. -/
def Environment.Always (p : EnvMove → Prop) (e : Environment) : Prop := ∀ n m, (e.drop n).move = some m → p m

/-- The environment makes the moves written out and then is silent. -/
def Environment.only (moves : List EnvMove) : Environment := ⟨moves, .silent⟩

/-- The moves of one attempt (premises P1 and P2 of 20_memory R64, with finitely many events): any number of moves that
keep the block waiting, the grant, any number of events and busy answers, the final status `st`. -/
structure AttemptScript (st : Status) (script : List EnvMove) : Prop where
  final : st ≠ Config.stBusy
  moves : ∃ waiting events, script = waiting ++ .grant true :: events ++ [.status st] ∧
    (∀ m ∈ waiting, m.keepsWaiting = true) ∧ ∀ m ∈ events, m.keepsTransferring

/-! ## Relations -/

/-- Equal in everything but `OPC` (R174). -/
def SameButOpcode (s t : State) : Prop := t = { s with opc := t.opc }

/-- Equal in everything but the registers reset leaves unspecified (R42). -/
def SameButUnspecified (s t : State) : Prop :=
  t = { s with dev := t.dev, abuf := t.abuf, dbuf := t.dbuf, lst := t.lst, opc := t.opc }

/-- Equal in everything the outside can see or the sequencing depends on: ports, device space, phase, counters, handlers. -/
def SameOutside (s t : State) : Prop :=
  t.res = s.res ∧ t.port = s.port ∧ t.mem = s.mem ∧ t.bsy = s.bsy ∧ t.ph = s.ph ∧ t.att = s.att ∧ t.cbh = s.cbh ∧
    t.nah = s.nah ∧ t.host = s.host ∧ t.env = s.env

/-- Equal in everything but the address halves, the cells and the port items that carry them (R21, R51). -/
def SameButAddress (s t : State) : Prop :=
  t = { s with dev := t.dev, abuf := t.abuf, mem := t.mem, port := t.port }

/-! ## Number formats (44_annex R185) -/

/-- Ordinary mathematics: every result is the exact one. -/
def NumberFormat.IsExact (f : NumberFormat) : Prop := ∀ x, f.fit x = x

/-- `round` gives a nearest integer; which of two, at a tie, is open. -/
def NumberFormat.RoundsToNearest (f : NumberFormat) : Prop := ∀ x, |(f.round x : ℚ) - x| ≤ 1 / 2

/-! ## Words the spec calls illegal, in arithmetic (30_encoding R91) -/

/-- The word spells no command (R91), read as an unsigned number. -/
def IllegalWord (w : Word32) : Prop :=
  w.toNat / 2 ^ 28 = 0 ∨ 7 ≤ w.toNat / 2 ^ 28 ∨
  ((w.toNat / 2 ^ 28 = 1 ∨ w.toNat / 2 ^ 28 = 5) ∧
    (w.toNat / 2 ^ 8 % 2 ^ 20 ≠ 0 ∨ 11 ≤ w.toNat / 2 ^ 4 % 2 ^ 4 ∨ w.toNat % 4 = 3)) ∨
  ((w.toNat / 2 ^ 28 = 2 ∨ w.toNat / 2 ^ 28 = 6) ∧ (w.toNat / 2 ^ 4 % 2 ^ 24 ≠ 0 ∨ w.toNat % 4 = 3)) ∨
  (w.toNat / 2 ^ 28 = 3 ∧ w.toNat / 2 ^ 24 % 2 ^ 4 ≠ 0) ∨
  (w.toNat / 2 ^ 28 = 4 ∧ (w.toNat / 2 ^ 24 % 2 ^ 4 ≠ 0 ∨ w.toNat % 2 ^ 8 ≠ 0))

end Sys2Proof.Machine
end

