-- ==== Sys2Proof/Certificates/Slice0/Obligations.lean ====
section
/-! DEFINITION. The statements for the provers, one definition each; OBLIGATIONS.json lists them. Each docstring names the
rule of the spec it formalises. -/

open Sys2Proof Sys2Proof.Machine

/-! ## Encoding (30_encoding) -/

/-- R81, R84: encoding a well-formed command and decoding the word gives the command back. -/
def Obligations.DecodeEncodeRoundTrip : Prop :=
  ∀ i : Instr, WellFormed i = true → decode (encode i) = .ok i

/-- R81, R84, R85: a word has at most one meaning: a decoded word is the encoding of its command, which is well formed. -/
def Obligations.EncodeDecodeRoundTrip : Prop :=
  ∀ (w : Word32) (i : Instr), decode w = .ok i → encode i = w ∧ WellFormed i = true

/-- R91: the refused words, by arithmetic on the word; in particular a legal word whose resolution and rate do not go
together is not refused. -/
def Obligations.RefusedWordsAreTheIllegalWords : Prop :=
  (∀ w : Word32, (∃ e, decode w = .error e) ↔ IllegalWord w) ∧
  ∀ (scale : Scale) (res : Resolution) (odr : Odr), odr.toNat ≤ 10 → validAcc res odr = false →
    decode (formatA 0x1 scale res odr) = .ok (.enca scale res odr) ∧
    decode (formatA 0x5 scale res odr) = .ok (.cfga scale res odr)

/-- R93, R84: the written form of every command assembles, field by field, to the word the encoder gives. -/
def Obligations.AssemblerAgreesWithEncoder : Prop := ∀ i : Instr, (Line.ofInstr i).assemble = some (encode i)

/-- R84: no word has the fixed bits of two rows of the table. -/
def Obligations.OpcodeRowsAreDisjoint : Prop :=
  ∀ (w : Word32) (a b : Opcode), w &&& a.row.mask = a.row.pattern → w &&& b.row.mask = b.row.pattern → a = b

/-- 95_test_vectors V-DEC20 to V-DEC29 and three refusals: words written out from the patterns of R84. -/
def Obligations.SampleWordsDecode : Prop :=
  decode 0x1000006A = .ok (.enca .g8 .r14 6) ∧
  decode 0x20000009 = .ok (.encm .single 2) ∧
  decode 0x301D2068 = .ok (.wr 0x1D 0x20 0x68) ∧
  decode 0x401E4F00 = .ok (.rd 0x1E 0x4F) ∧
  decode 0x5000006A = .ok (.cfga .g8 .r14 6) ∧
  decode 0x6000000C = .ok (.cfgm .continuous 3) ∧
  decode 0x70000000 = .error .unassignedOpcode ∧
  decode 0x10000170 = .error .nonZeroField ∧
  decode 0x100000C1 = .error .notAMember

/-! ## Command and result port (30_encoding R80, R85 to R87; 60_exceptions) -/

/-- R80, R85: with `BSY = 0` and a word on the port that decodes, a step is exec of its command, the word taken off the
port. What a step adds around exec is only that. -/
def Obligations.StepRunsDecodedCommand : Prop :=
  ∀ (s : State) (w : Word32) (rest : List (Option Word32)) (i : Instr),
    s.bsy = false → s.host = some w :: rest → decode w = .ok i → step s = exec i { s with host := rest }

/-- R202: a word the decoder refuses, which is a word R91 calls illegal, is answered ILLEGAL_COMMAND; no register changes
and no port call is made. -/
def Obligations.IllegalCommandChangesNothing : Prop :=
  ∀ (s : State) (w : Word32) (rest : List (Option Word32)), s.bsy = false → s.host = some w :: rest →
    (IllegalWord w ∨ ∃ e, decode w = .error e) →
    step s = .next { s with host := rest, port := [], res := some ⟨.illegalCommand, 0, 0⟩ }

/-- R80: `cmd_ready` is `not BSY`. A word presented while it is true is taken in that step and decoded; while it is false
the block ignores the command port, whatever the host puts there. -/
def Obligations.CommandPortHandshake : Prop :=
  ∀ s : State, s.cmdReady = !s.bsy ∧
    (s.cmdReady = true → ∀ (w : Word32) (rest : List (Option Word32)), s.host = some w :: rest →
      (∀ i, decode w = .ok i → step s = exec i { s with host := rest }) ∧
      (∀ e, decode w = .error e → step s = .next (raiseError .illegalCommand { s with host := rest }))) ∧
    (s.cmdReady = false → ∀ (h : List (Option Word32)) (t : State), step s = .next t →
      t.host = s.host ∧ step { s with host := h } = .next { t with host := h })

/-- R230: with no command presented and no move of the outside world, the block waits: only the ports fall silent. -/
def Obligations.IdleBlockWaits : Prop :=
  ∀ s : State, s.bsy = false → s.cmdWord = none → NoMoveBefore s.env →
    step s = .next { s with host := s.host.tail, port := [], res := none }

/-- R86, R87: without a reset, a step produces a result exactly when it ends a command: it accepts one and leaves the
block ready, or it clears `BSY`. -/
def Obligations.ResultExactlyWhenCommandEnds : Prop :=
  ∀ s t : State, NoResetNext s → step s = .next t →
    (t.resValid = true ↔ t.bsy = false ∧ (s.bsy = true ∨ s.cmdWord ≠ none))

/-- R206: the order in which errors are found. An accepted word is tested for IllegalCommand first, then for
InvalidConfiguration, both without a port call; every result of a command in flight has kind DONE and carries the status
of the last attempt. -/
def Obligations.ErrorPriority : Prop :=
  (∀ (s t : State) (w : Word32) (rest : List (Option Word32)), s.bsy = false → s.host = some w :: rest →
    step s = .next t →
      t.port = [] ∧
      (IllegalWord w → t.res = some ⟨.illegalCommand, 0, 0⟩) ∧
      (∀ scale res odr, ¬ IllegalWord w → decode w = .ok (.cfga scale res odr) ∨ decode w = .ok (.enca scale res odr) →
        validAcc res odr = false → t.res = some ⟨.invalidConfiguration, 0, 0⟩) ∧
      (∀ r, t.res = some r → r.kind = .illegalCommand → IllegalWord w)) ∧
  ∀ (s t : State) (r : Result), s.bsy = true → step s = .next t → t.res = some r →
    r.kind = .done ∧ r.tstatus = s.lst ∧ s.ph = .closed ∧ t.port = []

/-! ## The Register Encoder (41_encoder) -/

/-- R112: which pairs are valid; 10-bit and 14-bit up to 800 Hz, 12-bit from 1600 Hz. -/
def Obligations.ValidPairs : Prop :=
  ∀ (res : Resolution) (odr : Odr), odr.toNat ≤ 10 →
    (validAcc res odr = true ↔
      (res = .r10 ∧ odr.toNat ≤ 7) ∨ (res = .r12 ∧ 8 ≤ odr.toNat) ∨ (res = .r14 ∧ odr.toNat ≤ 7))

/-- R113 with R111: ENCA answers the control byte, whose value is 16 code + 4 scale + 2 hf, for every state and every valid
configuration, and changes nothing but the result port. -/
def Obligations.EncaAnswersControlByte : Prop :=
  ∀ (s : State) (scale : Scale) (res : Resolution) (odr : Odr), odr.toNat ≤ 10 → validAcc res odr = true →
    ∃ byte : Byte,
      exec (.enca scale res odr) s = .next { s with port := [], res := some ⟨.done, 0, byte⟩ } ∧
      (res = .r10 → byte.toNat = 16 * (8 + odr.toNat) + 4 * scale.ordinal.toNat) ∧
      (res = .r12 → byte.toNat = 16 * (odr.toNat - 3) + 4 * scale.ordinal.toNat + 2) ∧
      (res = .r14 → byte.toNat = 16 * odr.toNat + 4 * scale.ordinal.toNat)

/-- R118 with R116: ENCM answers 128 + 4 modr + mode, for every state, and changes nothing but the result port. -/
def Obligations.EncmAnswersControlByte : Prop :=
  ∀ (s : State) (mode : MagMode) (modr : MagOdr), ∃ byte : Byte,
    exec (.encm mode modr) s = .next { s with port := [], res := some ⟨.done, 0, byte⟩ } ∧
    byte.toNat = 128 + 4 * modr.toNat + mode.ordinal.toNat

/-- R114, R117: a valid configuration can be recovered from its byte; accelerometer bytes have bit 0 clear, magnetometer
bytes have bit 7 set and bits 6 to 4 clear. -/
def Obligations.ControlBytesDetermineConfiguration : Prop :=
  (∀ (scale scale' : Scale) (res res' : Resolution) (odr odr' : Odr), odr.toNat ≤ 10 → odr'.toNat ≤ 10 →
    validAcc res odr = true → validAcc res' odr' = true → encAcc scale res odr = encAcc scale' res' odr' →
      scale = scale' ∧ res = res' ∧ odr = odr') ∧
  (∀ (mode mode' : MagMode) (modr modr' : MagOdr), encMag mode modr = encMag mode' modr' → mode = mode' ∧ modr = modr') ∧
  (∀ (scale : Scale) (res : Resolution) (odr : Odr), (encAcc scale res odr).getLsbD 0 = false) ∧
  ∀ (mode : MagMode) (modr : MagOdr), (encMag mode modr).extractLsb' 4 4 = 0x8

/-- 10_state R35, R36: the values of the fields of the two control registers in the bytes the encoder produces. -/
def Obligations.ControlRegisterFields : Prop :=
  (∀ (scale : Scale) (res : Resolution) (odr : Odr), odr.toNat ≤ 10 → validAcc res odr = true →
    (ctrlOdrCode (encAcc scale res odr)).toNat =
      (match res with
        | .r10 => 8 + odr.toNat
        | .r12 => odr.toNat - 3
        | .r14 => odr.toNat) ∧
    ctrlScale (encAcc scale res odr) = scale.ordinal ∧
    ctrlHf (encAcc scale res odr) = decide (res = .r12) ∧
    ctrlReserved (encAcc scale res odr) = false) ∧
  ∀ (mode : MagMode) (modr : MagOdr),
    cfgTempComp (encMag mode modr) = true ∧ cfgUnnamed (encMag mode modr) = 0 ∧ cfgHighRes (encMag mode modr) = false ∧
    cfgOdr (encMag mode modr) = modr ∧ cfgMode (encMag mode modr) = mode.ordinal

/-- R110: the encoder commands make no port call, read no register and write none: in any two states they give the same
result and each state stays as it is. -/
def Obligations.EncoderReadsAndWritesNoRegister : Prop :=
  ∀ (i : Instr) (s s' : State), (∃ scale res odr, i = .enca scale res odr) ∨ (∃ mode modr, i = .encm mode modr) →
    ∃ r : Result,
      exec i s = .next { s with port := [], res := some r } ∧ exec i s' = .next { s' with port := [], res := some r }

/-- R201: an invalid configuration is answered INVALID_CONFIGURATION; no register changes, no port call is made, the device
is untouched, and the machine goes on as if the command had never been presented. ENCM and CFGM never raise it. -/
def Obligations.InvalidConfigurationLeavesNoTrace : Prop :=
  (∀ (i : Instr) (s t : State), exec i s = .next t →
    (∃ scale res odr, odr.toNat ≤ 10 ∧ validAcc res odr = false ∧
      (i = .enca scale res odr ∨ i = .cfga scale res odr)) →
      t = { s with port := [], res := some ⟨.invalidConfiguration, 0, 0⟩ } ∧ step t = step s) ∧
  (∀ (s : State) (scale : Scale) (res : Resolution) (odr : Odr), odr.toNat ≤ 10 → validAcc res odr = false →
    (∃ t, exec (.enca scale res odr) s = .next t) ∧ ∃ t, exec (.cfga scale res odr) s = .next t) ∧
  ∀ (s t : State) (mode : MagMode) (modr : MagOdr),
    exec (.encm mode modr) s = .next t ∨ exec (.cfgm mode modr) s = .next t →
      ∀ r, t.res = some r → r.kind ≠ .invalidConfiguration

/-! ## Acceptance of the transaction commands (42 R150, R153; 43 R170, R172; 10_state R25, R28) -/

/-- R150, R170, R172, accept: WR, CFGM and a valid CFGA load the latch, the address, the byte and one attempt; nothing else
changes, and no port call or result is made yet. -/
def Obligations.WriteCommandsAccepted : Prop :=
  (∀ (s : State) (dev reg val : Byte), exec (.wr dev reg val) s = .next { s with
    bsy := true, opc := 0x3#4, dev := dev, abuf := reg, dbuf := val, att := 1, port := [], res := none }) ∧
  (∀ (s : State) (scale : Scale) (res : Resolution) (odr : Odr), odr.toNat ≤ 10 → validAcc res odr = true →
    exec (.cfga scale res odr) s = .next { s with
      bsy := true, opc := 0x5#4, dev := Config.accDev, abuf := 0x20, dbuf := encAcc scale res odr, att := 1,
      port := [], res := none }) ∧
  ∀ (s : State) (mode : MagMode) (modr : MagOdr), exec (.cfgm mode modr) s = .next { s with
    bsy := true, opc := 0x6#4, dev := Config.magDev, abuf := 0x60, dbuf := encMag mode modr, att := 1,
    port := [], res := none }

/-- R153, accept, with step S0 of R131: RD loads the latch, the address and two attempts; `DBUF` becomes a draw, whatever
its value. -/
def Obligations.ReadAccepted : Prop :=
  ∀ (s : State) (dev reg : Byte), exec (.rd dev reg) s = .next { s with
    bsy := true, opc := 0x4#4, dev := dev, abuf := reg, dbuf := Config.any8 s.draws, draws := s.draws + 1, att := 2,
    port := [], res := none }

/-- The frame of exec (R110, R150, R153, R201): no command's acceptance changes memory, the phase, the handlers, the last
status or the environment; ENCA, ENCM change no register at all, RD draws `DBUF`, the others leave the draws alone. -/
def Obligations.CommandFrame : Prop :=
  ∀ (i : Instr) (s t : State), exec i s = .next t →
    (∀ a : Nat, t.mem.read a = s.mem.read a) ∧
    t.ph = s.ph ∧ t.cbh = s.cbh ∧ t.nah = s.nah ∧ t.lst = s.lst ∧ t.armed = s.armed ∧ t.deposited = s.deposited ∧
    t.host = s.host ∧ t.env = s.env ∧ t.port = [] ∧
    ((∀ dev reg, i ≠ .rd dev reg) → t.draws = s.draws) ∧
    ((∃ r, t.res = some r) →
      t.dev = s.dev ∧ t.abuf = s.abuf ∧ t.dbuf = s.dbuf ∧ t.att = s.att ∧ t.bsy = s.bsy ∧ t.opc = s.opc) ∧
    ((∃ scale res odr, i = .enca scale res odr) ∨ (∃ mode modr, i = .encm mode modr) → ∃ r, t.res = some r)

/-- 10_state R25: what loads, counts down and clears `ATT`; no other step with a command in flight changes it, but a reset,
which ResetInput says clears it. -/
def Obligations.AttemptCounter : Prop :=
  (∀ (s t : State) (i : Instr), s.bsy = false → exec i s = .next t → t.bsy = true →
    t.att = if t.opc = 0x4#4 then 2 else 1) ∧
  (∀ s t : State, Inv s → s.bsy = true → s.ph = .closed → NoMoveBefore s.env → step s = .next t →
    t.att.val = if s.isRead = true ∧ s.lst = Config.stNoErr then 0 else s.att.val - 1) ∧
  (∀ s t : State, Inv s → s.bsy = true → s.ph ≠ .closed ∨ ¬ NoMoveBefore s.env → NoResetNext s → step s = .next t →
    t.att = s.att) ∧
  ∀ s : State, Inv s → s.bsy = false → s.att = 0

/-! ## The attempt (42_transaction R131 to R146) -/

/-- R132: each call of `T.open` is one step; while the answer is false no register changes; the step that receives true
sets `PH` to BusAcquired. -/
def Obligations.AcquisitionStep : Prop :=
  ∀ (s : State) (g : Bool), s.bsy = true → s.ph = .idle → s.env.move = some (.grant g) →
    step s = .next { s with
      env := s.env.next, port := [.tOpen s.dev g], res := none, ph := if g then .busAcquired else .idle }

/-- R133: the four set-up calls, in order, with `PH` = BusAcquired until the last; each is one step, no event occurs in
them, and the fourth starts the transfer. -/
def Obligations.SetUpSequence : Prop :=
  ∀ s : State, s.bsy = true → s.ph = .busAcquired → s.armed = none → s.cbh = .none → s.nah = .none →
    NoMoveBefore s.env →
    ∃ s2 s3 s4 s5 : State, ∃ h : CompletionHandler, h = (if s.opc = 0x4#4 then .rdStage else .wrStage) ∧
      step s = .next s2 ∧ step s2 = .next s3 ∧ step s3 = .next s4 ∧ step s4 = .next s5 ∧
      s2 = { s with port := [.tSetbuf .abuf 1], res := none, armed := some .abuf } ∧
      s3 = { s2 with port := [.tSetcb h .dbuf], cbh := h } ∧
      s4 = { s3 with port := [.tSetnack .retry], nah := .retry } ∧
      s5 = { s4 with port := [.tStart], ph := .addressPhaseSent, deposited := false }

/-- R57, R134: a busy answer of `T.close`, or none, leaves every register as it is; the block polls again. -/
def Obligations.BusyAnswerChangesNothing : Prop :=
  ∀ s : State, s.bsy = true → s.ph.inTransfer = true →
    (s.env.move = some (.status Config.stBusy) →
      step s = .next { s with env := s.env.next, port := [.tClose Config.stBusy], res := none }) ∧
    (s.env.move = none → step s = .next { s with port := [.tClose Config.stBusy], res := none })

/-- R137: the closing step, from any of the three phases of a transfer, and after it the step back to `Idle` with one
attempt fewer, which a clean read then sets to 0 in the same step (R153). What the transport still has armed is left open. -/
def Obligations.ClosingSteps : Prop :=
  (∀ (s : State) (st : Status), s.bsy = true → s.ph.inTransfer = true →
    s.env.move = some (.status st) → st ≠ Config.stBusy →
    ∃ t, step s = .next t ∧ t = { s with
      env := s.env.next, port := [.tClose st], res := none, lst := st, ph := .closed, cbh := .none, nah := .none,
      armed := t.armed }) ∧
  ∀ s t : State, Inv s → s.bsy = true → s.ph = .closed → NoMoveBefore s.env → step s = .next t →
    t.ph = .idle ∧ t.port = [] ∧ t.lst = s.lst ∧ t.env = s.env ∧
    (t.att.val = s.att.val - 1 ∨ s.isRead = true ∧ s.lst = Config.stNoErr ∧ t.att = 0)

/-- R140: the COMPLETE event, for each handler. -/
def Obligations.CompletionEvent : Prop :=
  ∀ s : State, s.bsy = true → s.ph.inTransfer = true → s.env.move = some .complete →
    (s.cbh = .wrStage → step s = .next { s with
      env := s.env.next, res := none, port := [.complete, .tSetbuf .dbuf 1, .answer .continueWrite],
      armed := some .dbuf, cbh := .none, ph := .dataPhaseSent }) ∧
    (s.cbh = .rdStage → step s = .next { s with
      env := s.env.next, res := none, port := [.complete, .tSetbuf .dbuf 1, .answer .restartRead],
      armed := some .dbuf, cbh := .none, ph := .dataPhaseReceived }) ∧
    (s.cbh = .none → step s = .next { s with
      env := s.env.next, res := none, port := [.complete, .answer .finish] }) ∧
    (Inv s → s.cbh ≠ .none → s.ph = .addressPhaseSent)

/-- R141: the ADDRNACK event is answered NACK_RETRY in any of the three phases of a transfer and changes no register. -/
def Obligations.AddressNackEvent : Prop :=
  ∀ s : State, Inv s → s.bsy = true → s.ph.inTransfer = true → s.env.move = some .addrNack →
    step s = .next { s with env := s.env.next, res := none, port := [.addrNack, .answer .nackRetry] }

/-- R63: without a reset, a step with a command in flight changes `DBUF` only by a DEPOSIT, in the data phase of a read and
the first of its attempt, which changes no other register; or by step S0, when a read begins its second attempt. -/
def Obligations.DepositIsTheOnlyBufferWrite : Prop :=
  (∀ s t : State, s.bsy = true → NoResetNext s → step s = .next t → t.dbuf ≠ s.dbuf →
    (s.ph = .dataPhaseReceived ∧ s.deposited = false ∧ ∃ b, s.env.move = some (.deposit b) ∧
      t = { s with env := s.env.next, port := [.deposit b], res := none, dbuf := b, deposited := true }) ∨
    (s.ph = .closed ∧ s.isRead = true ∧ s.lst ≠ Config.stNoErr ∧ t.bsy = true ∧ t.dbuf = Config.any8 s.draws)) ∧
  ∀ (s : State) (b : Byte), s.bsy = true → s.ph = .dataPhaseReceived → s.deposited = false →
    s.env.move = some (.deposit b) →
    step s = .next { s with env := s.env.next, port := [.deposit b], res := none, dbuf := b, deposited := true }

/-- R136: the transition relation of `PH`, and no other transition: where a step with a command in flight changes `PH`, the
trigger is on the transport port and the condition and effects of the table hold. -/
def Obligations.PhaseTransitionRelation : Prop :=
  ∀ s t : State, Inv s → s.bsy = true → NoResetNext s → step s = .next t → t.ph ≠ s.ph →
    (s.ph = .idle ∧ t.ph = .busAcquired ∧ t.port = [.tOpen s.dev true] ∧
      t.cbh = .none ∧ t.nah = .none ∧ t.lst = s.lst) ∨
    (s.ph = .busAcquired ∧ t.ph = .addressPhaseSent ∧ t.port = [.tStart] ∧
      s.armed = some .abuf ∧ s.nah = .retry ∧ t.cbh = s.cbh ∧ s.cbh = (if s.opc = 0x4#4 then .rdStage else .wrStage) ∧
      t.lst = s.lst) ∨
    (s.ph = .addressPhaseSent ∧ t.ph = .dataPhaseReceived ∧ s.cbh = .rdStage ∧ t.cbh = .none ∧ t.nah = s.nah ∧
      t.port = [.complete, .tSetbuf .dbuf 1, .answer .restartRead] ∧ t.lst = s.lst) ∨
    (s.ph = .addressPhaseSent ∧ t.ph = .dataPhaseSent ∧ s.cbh = .wrStage ∧ t.cbh = .none ∧ t.nah = s.nah ∧
      t.port = [.complete, .tSetbuf .dbuf 1, .answer .continueWrite] ∧ t.lst = s.lst) ∨
    (s.ph.inTransfer = true ∧ t.ph = .closed ∧ t.cbh = .none ∧ t.nah = .none ∧
      ∃ st, st ≠ Config.stBusy ∧ t.lst = st ∧ t.port = [.tClose st]) ∨
    (s.ph = .closed ∧ t.ph = .idle ∧ t.port = [] ∧ t.att < s.att ∧ t.lst = s.lst)

/-- R22, R32: `ABUF`, and with it `DEV`, stay as the command loaded them until the next command is accepted; so does the byte
of a write. -/
def Obligations.AddressHeldToTheEnd : Prop :=
  ∀ s t : State, Inv s → s.bsy = true ∨ s.cmdWord = none → NoResetNext s → step s = .next t →
    t.abuf = s.abuf ∧ t.dev = s.dev ∧ t.opc = s.opc ∧ (s.bsy = true → s.isRead = false → t.dbuf = s.dbuf)

/-- 10_state R29: `LST` is written only with a status that ended a busy-wait, and the result of a write carries it. -/
def Obligations.LastStatusIsNeverBusy : Prop :=
  (∀ s t : State, NoResetNext s → step s = .next t → t.lst ≠ s.lst →
    t.lst ≠ Config.stBusy ∧ s.ph.inTransfer = true ∧ t.port = [.tClose t.lst]) ∧
  ∀ (s t : State) (r : Result), Inv s → s.bsy = true → s.isRead = false → step s = .next t → t.res = some r →
    r.tstatus = t.lst ∧ t.lst ≠ Config.stBusy

/-- R146: the bus is owned from a granted `T.open` to the non-busy `T.close`; after a failed first attempt of a read the
next state does not own it, and acquires it again. -/
def Obligations.BusFreeBetweenAttempts : Prop :=
  ∀ s : State, s.bsy = true → s.isRead = true → s.ph = .closed → s.att = 2 → s.lst ≠ Config.stNoErr →
    NoMoveBefore s.env → s.ownsBus = false ∧
    ∃ t : State, step s = .next t ∧ t.ownsBus = false ∧ t.bsy = true ∧ t.ph = .idle ∧ t.att = 1 ∧
      (s.env.move = some (.grant true) → ∃ u, step t = .next u ∧ u.ownsBus = true ∧ u.port = [.tOpen s.dev true])

/-! ## Ends of a transaction (42_transaction R150 to R156) -/

/-- R151: whatever status its one attempt ends with, a write is over: the status is the result, and no second attempt
begins. -/
def Obligations.WriteNeverRetries : Prop :=
  ∀ s : State, Inv s → s.bsy = true → s.isRead = false → s.ph = .closed → NoMoveBefore s.env →
    step s = .next { s with
      ph := .idle, att := 0, bsy := false, port := [], res := some ⟨.done, s.lst, 0⟩ }

/-- R154 with R153: the retry policy. A clean status ends the read with the byte of `DBUF`; a failure with an attempt left
starts the second attempt at once with the same address and a fresh draw in `DBUF`; a failure with none left ends the read
with the failure code. -/
def Obligations.ReadRetryPolicy : Prop :=
  ∀ s : State, Inv s → s.bsy = true → s.isRead = true → s.ph = .closed → NoMoveBefore s.env →
    (s.lst = Config.stNoErr → step s = .next { s with
      ph := .idle, att := 0, bsy := false, port := [], res := some ⟨.done, Config.stNoErr, s.dbuf⟩ }) ∧
    (s.lst ≠ Config.stNoErr → s.att = 2 → step s = .next { s with
      ph := .idle, att := 1, port := [], res := none, dbuf := Config.any8 s.draws, draws := s.draws + 1 }) ∧
    (s.lst ≠ Config.stNoErr → s.att = 1 → ∃ b, step s = .next { s with
      ph := .idle, att := 0, bsy := false, port := [], draws := s.draws + 1, res := some ⟨.done, s.lst, b⟩ }) ∧
    (s.att = 1 ∨ s.att = 2)

/-- R155: the byte of an exhausted read is a draw of its own, later than every draw made so far; `DBUF` keeps what the
failed attempt left. -/
def Obligations.ExhaustedReadByteIsADraw : Prop :=
  ∀ s t : State, Inv s → s.bsy = true → s.isRead = true → s.ph = .closed → s.att = 1 → s.lst ≠ Config.stNoErr →
    NoMoveBefore s.env → step s = .next t →
    t.res = some ⟨.done, s.lst, Config.any8 s.draws⟩ ∧ t.draws = s.draws + 1 ∧ t.dbuf = s.dbuf

/-- R156: a read whose first attempt fails, whatever it deposited, and whose second attempt ends clean answers the first byte
deposited in the data phase of the second attempt, or, if that attempt has no deposit, the draw its step S0 made. Any events,
cell changes and busy polls may come in either attempt, in any order and number. -/
def Obligations.SecondAttemptsByteIsReturned : Prop :=
  ∀ (s u : State) (dev reg : Byte) (st : Status) (script waiting second : List EnvMove) (rest : Environment),
    Inv s → s.bsy = false → AttemptScript st script → st ≠ Config.stNoErr → (∀ m ∈ waiting, m.keepsWaiting = true) →
    (∀ m ∈ second, m.keepsTransferring) → NoMoveBefore rest → exec (.rd dev reg) s = .next u →
    Environment.Begins (script ++ (waiting ++ .grant true :: (second ++ [.status Config.stNoErr]))) u.env rest →
    (∀ (b : Byte) (before between after : List EnvMove),
      second = before ++ .complete :: (between ++ .deposit b :: after) →
      (∀ m ∈ before ++ between, m.isDeposit = false) →
      ∃ n t, Reaches n u t ∧ t.res = some ⟨.done, Config.stNoErr, b⟩ ∧ t.dbuf = b ∧ t.env = rest ∧ Quiescent t) ∧
    ((∀ m ∈ second, m.isDeposit = false) →
      ∃ n t, Reaches n u t ∧ t.res = some ⟨.done, Config.stNoErr, Config.any8 u.draws⟩ ∧ t.env = rest ∧ Quiescent t)

/-! ## Whole transactions (42_transaction R158, R159; 43 R174) -/

/-- R159 and R150, R170, R172: under premises P1 and P2, with any finite number of waits, events and busy answers, an
accepted WR, CFGM or valid CFGA comes to its result: the status of its one attempt, `BSY` clear, everything quiescent. -/
def Obligations.WriteCommandsComplete : Prop :=
  ∀ (i : Instr) (s : State) (st : Status) (script : List EnvMove) (rest : Environment),
    (∃ dev reg val, i = .wr dev reg val) ∨ (∃ mode modr, i = .cfgm mode modr) ∨
      (∃ scale res odr, i = .cfga scale res odr ∧ odr.toNat ≤ 10 ∧ validAcc res odr = true) →
    Inv s → s.bsy = false → Environment.Begins script s.env rest → AttemptScript st script → NoMoveBefore rest →
    ∃ u n t, exec i s = .next u ∧ Reaches n u t ∧
      t.res = some ⟨.done, st, 0⟩ ∧ t.lst = st ∧ Quiescent t ∧ t.env = rest ∧ t.host = s.host ∧
      t.dev = u.dev ∧ t.abuf = u.abuf ∧ t.dbuf = u.dbuf ∧ t.draws = s.draws

/-- R159 and R153: under premises P1 and P2, RD comes to its result after one attempt that ends clean, or after two: the
second attempt's status is then the result's, and the byte is `DBUF` when that status is clean. -/
def Obligations.ReadCompletes : Prop :=
  ∀ (s : State) (dev reg : Byte) (st st2 : Status) (script script2 : List EnvMove) (rest : Environment),
    Inv s → s.bsy = false → AttemptScript st script → NoMoveBefore rest →
    (st = Config.stNoErr → Environment.Begins script s.env rest →
      ∃ u n t, exec (.rd dev reg) s = .next u ∧ Reaches n u t ∧
        t.res = some ⟨.done, Config.stNoErr, t.dbuf⟩ ∧ t.lst = Config.stNoErr ∧ Quiescent t ∧ t.env = rest ∧
        t.dev = dev ∧ t.abuf = reg) ∧
    (st ≠ Config.stNoErr → AttemptScript st2 script2 → Environment.Begins (script ++ script2) s.env rest →
      ∃ u n t b, exec (.rd dev reg) s = .next u ∧ Reaches n u t ∧
        t.res = some ⟨.done, st2, b⟩ ∧ (st2 = Config.stNoErr → b = t.dbuf) ∧ t.lst = st2 ∧ Quiescent t ∧
        t.env = rest ∧ t.dev = dev ∧ t.abuf = reg)

/-- R158: the port calls of one attempt: at least one `T.open`, exactly one each of `T.setbuf(ABUF)`, `T.setcb`,
`T.setnack` and `T.start`, at most one `T.setbuf(DBUF)`, at least one `T.close`, from acquisition to `Closed`. -/
def Obligations.PortCallsOfOneAttempt : Prop :=
  ∀ (s : State) (st : Status) (script : List EnvMove) (rest : Environment),
    Inv s → s.bsy = true → s.ph = .idle → Environment.Begins script s.env rest → AttemptScript st script →
    ∃ n t, Reaches n s t ∧ t.ph = .closed ∧ t.lst = st ∧ t.env = rest ∧
      1 ≤ (portTrace n s).countP (fun x => decide (x = .tOpen s.dev true ∨ x = .tOpen s.dev false)) ∧
      (portTrace n s).count (.tOpen s.dev true) = 1 ∧
      (portTrace n s).count (.tSetbuf .abuf 1) = 1 ∧
      (portTrace n s).count (.tSetcb (stageHandler s) .dbuf) = 1 ∧
      (portTrace n s).count (.tSetnack .retry) = 1 ∧
      (portTrace n s).count .tStart = 1 ∧
      (portTrace n s).count (.tSetbuf .dbuf 1) ≤ 1 ∧
      1 ≤ (portTrace n s).count (.tClose st)

/-- R174: CFGA and the WR of the same cell and byte, and CFGM likewise, run side by side for ever: the same port calls, the
same results, the same states, but for `OPC`. R174 speaks of the command only; that later reads and resets agree too rests on
the two runs having the same draw counter, and so the same draws, which is the model's choice (log 7). -/
def Obligations.ConfigureIsAWrite : Prop :=
  ∀ (i j : Instr) (s : State),
    (∃ scale res odr, odr.toNat ≤ 10 ∧ validAcc res odr = true ∧ i = .cfga scale res odr ∧
      j = .wr Config.accDev 0x20 (encAcc scale res odr)) ∨
    (∃ mode modr, i = .cfgm mode modr ∧ j = .wr Config.magDev 0x60 (encMag mode modr)) →
    Inv s → s.bsy = false →
    ∃ u v, exec i s = .next u ∧ exec j s = .next v ∧
      ∀ n, ∃ u' v', Reaches n u u' ∧ Reaches n v v' ∧ SameButOpcode u' v' ∧ portTrace n u = portTrace n v

/-! ## Hangs (70 R241, R242) -/

/-- R241: as long as `T.open` is not answered true, and no reset comes, the command does not complete, for any number of
steps and whatever else the environment does, for ever: the registers are as they were, `cmd_ready` is false, and there is no
result. If only refusals come, nothing outside the block changes either. -/
def Obligations.HangAtAcquisition : Prop :=
  ∀ (s : State) (n : Nat), s.bsy = true → s.ph = .idle → s.env.Always (fun m => m.keepsWaiting = true) →
    ∃ t, Reaches (n + 1) s t ∧ t.cmdReady = false ∧ t.resValid = false ∧
      t = { s with mem := t.mem, env := s.env.drop (n + 1), port := t.port, res := none } ∧
      (s.env.Always (fun m => m = .grant false) → t.mem = s.mem ∧ t.port = [.tOpen s.dev false])

/-- R242: as long as `T.close` answers busy, and no reset comes, the command does not complete and the block keeps the bus,
whatever events occur, for ever. If only busy answers come, nothing else changes. -/
def Obligations.HangAtCompletion : Prop :=
  ∀ (s : State) (n : Nat), s.bsy = true → s.ph.inTransfer = true → s.env.Always EnvMove.keepsTransferring →
    ∃ t, Reaches (n + 1) s t ∧ t.cmdReady = false ∧ t.resValid = false ∧ t.ownsBus = true ∧ t.ph.inTransfer = true ∧
      t.att = s.att ∧ t.opc = s.opc ∧ t.lst = s.lst ∧
      (s.env.Always (fun m => m = .status Config.stBusy) → t = { s with
        env := s.env.drop (n + 1), port := [.tClose Config.stBusy], res := none })

/-! ## Device register space (20_memory R50 to R54, R64, R68) -/

/-- R52, R64: without a reset, a step changes at most one cell: the addressed cell, to `DBUF`, when the device takes the
byte in the data phase of a write; or the cell the outside world changes. Every other cell reads as before. -/
def Obligations.MemoryFrame : Prop :=
  ∀ s t : State, NoResetNext s → step s = .next t →
    (∀ a, t.mem.read a = s.mem.read a) ∨
    (s.bsy = true ∧ s.ph = .dataPhaseSent ∧ s.env.move = some .store ∧
      t.mem.read (cellAddr s.dev s.abuf) = some s.dbuf ∧
      ∀ a, a ≠ cellAddr s.dev s.abuf → t.mem.read a = s.mem.read a) ∨
    ∃ dev reg b, s.env.move = some (.cell dev reg b) ∧ t.mem.read (cellAddr dev reg) = some b ∧
      ∀ a, a ≠ cellAddr dev reg → t.mem.read a = s.mem.read a

/-- R150 with premise P4 of R64: a write in whose data phase the device takes the byte, with no other change of the device
register space, leaves the addressed cell holding the byte and every other cell as it was, whatever the status. -/
def Obligations.FaithfulWriteOverwritesOneCell : Prop :=
  ∀ (s u : State) (dev reg val : Byte) (st : Status) (waiting before after : List EnvMove) (rest : Environment),
    Inv s → s.bsy = false → st ≠ Config.stBusy → NoMoveBefore rest →
    (∀ m ∈ waiting, m.keepsWaiting = true ∧ m.touchesCells = false) →
    (∀ m ∈ before ++ after, m.keepsTransferring ∧ m.touchesCells = false) →
    Environment.Begins (waiting ++ .grant true :: (before ++ .complete :: .store :: (after ++ [.status st]))) s.env rest →
    exec (.wr dev reg val) s = .next u →
    ∃ n t, Reaches n u t ∧ t.res = some ⟨.done, st, 0⟩ ∧ t.mem.read (cellAddr dev reg) = some val ∧
      ∀ a, a ≠ cellAddr dev reg → t.mem.read a = s.mem.read a

/-- R68: when a write ends with a failure code both are runs of the machine: the device took the byte in the data phase, and
the addressed cell alone was overwritten; and it did not, and every cell is as it was. The moves of each run are written out,
no cell changes by itself in either. -/
def Obligations.FailedWriteMayOrMayNotLand : Prop :=
  ∀ (s : State) (dev reg val : Byte) (st : Status), Inv s → s.bsy = false → st ≠ Config.stBusy → st ≠ Config.stNoErr →
    (∃ u t, exec (.wr dev reg val) { s with env := .only [.grant true, .complete, .store, .status st] } = .next u ∧
      Reaches 9 u t ∧ t.res = some ⟨.done, st, 0⟩ ∧ t.mem.read (cellAddr dev reg) = some val ∧
      ∀ a, a ≠ cellAddr dev reg → t.mem.read a = s.mem.read a) ∧
    ∃ u t, exec (.wr dev reg val) { s with env := .only [.grant true, .complete, .status st] } = .next u ∧
      Reaches 8 u t ∧ t.res = some ⟨.done, st, 0⟩ ∧ ∀ a, t.mem.read a = s.mem.read a

/-- R153 with premise P3 of R64: a read whose attempt ends clean after one COMPLETE and one DEPOSIT of the content of the
addressed cell answers that content. -/
def Obligations.FaithfulReadReturnsCellContent : Prop :=
  ∀ (s u : State) (dev reg b : Byte) (n m : Nat) (rest : Environment),
    Inv s → s.bsy = false → NoMoveBefore rest → s.mem.read (cellAddr dev reg) = some b →
    exec (.rd dev reg) s = .next u →
    Environment.Begins (List.replicate n (.grant false) ++ .grant true :: .complete :: .deposit b ::
      (List.replicate m (.status Config.stBusy) ++ [.status Config.stNoErr])) u.env rest →
    ∃ t, Reaches (n + m + 9) u t ∧ t.res = some ⟨.done, Config.stNoErr, b⟩ ∧ t.mem.read (cellAddr dev reg) = some b

/-! ## Reset (10_state R42, 70 R230, R231) -/

/-- R42: the values reset gives. -/
def Obligations.ResetIsQuiescent : Prop :=
  State.reset.ph = .idle ∧ State.reset.att = 0 ∧ State.reset.cbh = .none ∧ State.reset.nah = .none ∧
    State.reset.bsy = false ∧ State.reset.cmdReady = true ∧ State.reset.resValid = false

/-- R230, R231: asserting reset, with no command in flight (registers only) or with one (the environment too), puts `PH`,
`ATT`, `CBH`, `NAH`, `BSY` at their reset values, makes `cmd_ready` true, produces no result and makes no port call. That
the second form also forgets the cells is the model's choice (log 6). -/
def Obligations.ResetInput : Prop :=
  ∀ s : State, s.env.move = some .reset → s.bsy = true ∨ s.cmdWord = none →
    ∃ t, step s = .next t ∧ Quiescent t ∧ t.cmdReady = true ∧ t.res = none ∧ t.port = [] ∧ t.env = s.env.next ∧
      (s.bsy = false → t.mem = s.mem) ∧ (s.bsy = true → t.mem = [] ∧ t.armed = none)

/-- R42: no command reads `DEV`, `ABUF`, `DBUF`, `LST` or `OPC` before writing it: from two quiescent states that differ
only in them, the machine looks the same from outside for ever. The two states have the same draw counter, and so the runs see
the same draws, in an exhausted read and after a reset: that is the model's choice (log 7). -/
def Obligations.UnspecifiedRegistersAreNeverRead : Prop :=
  ∀ s t : State, Inv s → Quiescent s → SameButUnspecified s t →
    ∀ n, ∃ s' t', Reaches n s s' ∧ Reaches n t t' ∧ SameOutside s' t' ∧ portTrace n s = portTrace n t

/-- R21, R51: the block never tests an address: a step from two states that differ only in the address halves, the cells
and the port items gives states that differ only in those, and the same result. The two states have the same draw counter, and
so a step that draws gives both the same draw: that is the model's choice (log 7). -/
def Obligations.AddressesAreOpaque : Prop :=
  ∀ s t s' : State, SameButAddress s t → step s = .next s' → ∃ t', step t = .next t' ∧ SameButAddress s' t'

/-! ## Whole machine -/

/-- R40: the invariant is kept by every step. -/
def Obligations.EveryStepKeepsTheInvariant : Prop :=
  ∀ s t : State, Inv s → step s = .next t → Inv t

/-- R40, R42: the invariant holds at reset. -/
def Obligations.ResetMeetsTheInvariant : Prop := Inv State.reset

/-- R12, R207: there is no trap and no fault state: every step of every state has a next state. -/
def Obligations.MachineNeverStops : Prop := ∀ s : State, ∃ t, step s = .next t

/-- R207: after any result the block is quiescent, the same after an error, a failure or a success. -/
def Obligations.EveryResultLeavesTheBlockQuiescent : Prop :=
  ∀ s t : State, Inv s → step s = .next t → t.resValid = true → Quiescent t

/-! ## The surrounding software (44_annex) -/

/-- R181: the document's sign extension, in a native integer of any width from `n` up, is the two's-complement value, for
8 and 16 bits; `sext` is that value. -/
def Obligations.SignExtensionIsTwosComplement : Prop :=
  (∀ (w : Nat) (v : BitVec 8), 8 ≤ w → (sextNative 8 w v).toInt = v.toInt ∧ sext 8 v = v.toInt) ∧
  ∀ (w : Nat) (v : BitVec 16), 16 ≤ w → (sextNative 16 w v).toInt = v.toInt ∧ sext 16 v = v.toInt

/-- R185: in exact arithmetic, for any rounding to a nearest integer and either order of evaluation, the physical value is
a whole number of hundredths, at most half a hundredth from raw times sensitivity divided by 10 and by 100; and the document's
own example. -/
def Obligations.PhysicalValueIsRoundedTwice : Prop :=
  (∀ (f : NumberFormat) (raw : Int) (scale : Scale), f.IsExact → f.RoundsToNearest →
    ∃ k : Int, physicalValue f raw scale = (k : ℚ) / 100 ∧
      |(k : ℚ) - (raw : ℚ) * ((sensitivity scale : ℚ) / 1000) / 10| ≤ 1 / 2) ∧
  ∀ f : NumberFormat, f.IsExact → f.RoundsToNearest → physicalValue f 1000 .g2 = 6 / 100

/-- R182, R186: an axis is high times 256 plus low as 16-bit two's complement; a temperature is in -103 to 152. -/
def Obligations.DecodedValues : Prop :=
  (∀ low high : Byte, axis low high = 256 * high.toInt + low.toNat) ∧
  ∀ b : Byte, temperature b = b.toInt + 25 ∧ -103 ≤ temperature b ∧ temperature b ≤ 152
end

