-- ==== Sys2Proof/Laws/State.lean ====
section
/-! SUPPORT. One lemma per field and named update of the state, each true by definition. -/

namespace Sys2Proof.Machine

/-! ## say -/

@[simp] theorem State.say_dev (items : List PortItem) (s : State) : (s.say items).dev = s.dev := rfl
@[simp] theorem State.say_abuf (items : List PortItem) (s : State) : (s.say items).abuf = s.abuf := rfl
@[simp] theorem State.say_dbuf (items : List PortItem) (s : State) : (s.say items).dbuf = s.dbuf := rfl
@[simp] theorem State.say_lst (items : List PortItem) (s : State) : (s.say items).lst = s.lst := rfl
@[simp] theorem State.say_ph (items : List PortItem) (s : State) : (s.say items).ph = s.ph := rfl
@[simp] theorem State.say_att (items : List PortItem) (s : State) : (s.say items).att = s.att := rfl
@[simp] theorem State.say_cbh (items : List PortItem) (s : State) : (s.say items).cbh = s.cbh := rfl
@[simp] theorem State.say_nah (items : List PortItem) (s : State) : (s.say items).nah = s.nah := rfl
@[simp] theorem State.say_bsy (items : List PortItem) (s : State) : (s.say items).bsy = s.bsy := rfl
@[simp] theorem State.say_opc (items : List PortItem) (s : State) : (s.say items).opc = s.opc := rfl
@[simp] theorem State.say_mem (items : List PortItem) (s : State) : (s.say items).mem = s.mem := rfl
@[simp] theorem State.say_armed (items : List PortItem) (s : State) : (s.say items).armed = s.armed := rfl
@[simp] theorem State.say_deposited (items : List PortItem) (s : State) : (s.say items).deposited = s.deposited := rfl
@[simp] theorem State.say_host (items : List PortItem) (s : State) : (s.say items).host = s.host := rfl
@[simp] theorem State.say_env (items : List PortItem) (s : State) : (s.say items).env = s.env := rfl
@[simp] theorem State.say_res (items : List PortItem) (s : State) : (s.say items).res = none := rfl
@[simp] theorem State.say_port (items : List PortItem) (s : State) : (s.say items).port = items := rfl
@[simp] theorem State.say_draws (items : List PortItem) (s : State) : (s.say items).draws = s.draws := rfl

/-! ## emit -/

@[simp] theorem State.emit_dev (r : Result) (s : State) : (s.emit r).dev = s.dev := rfl
@[simp] theorem State.emit_abuf (r : Result) (s : State) : (s.emit r).abuf = s.abuf := rfl
@[simp] theorem State.emit_dbuf (r : Result) (s : State) : (s.emit r).dbuf = s.dbuf := rfl
@[simp] theorem State.emit_lst (r : Result) (s : State) : (s.emit r).lst = s.lst := rfl
@[simp] theorem State.emit_ph (r : Result) (s : State) : (s.emit r).ph = s.ph := rfl
@[simp] theorem State.emit_att (r : Result) (s : State) : (s.emit r).att = s.att := rfl
@[simp] theorem State.emit_cbh (r : Result) (s : State) : (s.emit r).cbh = s.cbh := rfl
@[simp] theorem State.emit_nah (r : Result) (s : State) : (s.emit r).nah = s.nah := rfl
@[simp] theorem State.emit_bsy (r : Result) (s : State) : (s.emit r).bsy = s.bsy := rfl
@[simp] theorem State.emit_opc (r : Result) (s : State) : (s.emit r).opc = s.opc := rfl
@[simp] theorem State.emit_mem (r : Result) (s : State) : (s.emit r).mem = s.mem := rfl
@[simp] theorem State.emit_armed (r : Result) (s : State) : (s.emit r).armed = s.armed := rfl
@[simp] theorem State.emit_deposited (r : Result) (s : State) : (s.emit r).deposited = s.deposited := rfl
@[simp] theorem State.emit_host (r : Result) (s : State) : (s.emit r).host = s.host := rfl
@[simp] theorem State.emit_env (r : Result) (s : State) : (s.emit r).env = s.env := rfl
@[simp] theorem State.emit_res (r : Result) (s : State) : (s.emit r).res = some r := rfl
@[simp] theorem State.emit_port (r : Result) (s : State) : (s.emit r).port = [] := rfl
@[simp] theorem State.emit_draws (r : Result) (s : State) : (s.emit r).draws = s.draws := rfl

/-! ## pop -/

@[simp] theorem State.pop_dev (s : State) : s.pop.dev = s.dev := rfl
@[simp] theorem State.pop_abuf (s : State) : s.pop.abuf = s.abuf := rfl
@[simp] theorem State.pop_dbuf (s : State) : s.pop.dbuf = s.dbuf := rfl
@[simp] theorem State.pop_lst (s : State) : s.pop.lst = s.lst := rfl
@[simp] theorem State.pop_ph (s : State) : s.pop.ph = s.ph := rfl
@[simp] theorem State.pop_att (s : State) : s.pop.att = s.att := rfl
@[simp] theorem State.pop_cbh (s : State) : s.pop.cbh = s.cbh := rfl
@[simp] theorem State.pop_nah (s : State) : s.pop.nah = s.nah := rfl
@[simp] theorem State.pop_bsy (s : State) : s.pop.bsy = s.bsy := rfl
@[simp] theorem State.pop_opc (s : State) : s.pop.opc = s.opc := rfl
@[simp] theorem State.pop_mem (s : State) : s.pop.mem = s.mem := rfl
@[simp] theorem State.pop_armed (s : State) : s.pop.armed = s.armed := rfl
@[simp] theorem State.pop_deposited (s : State) : s.pop.deposited = s.deposited := rfl
@[simp] theorem State.pop_host (s : State) : s.pop.host = s.host := rfl
@[simp] theorem State.pop_env (s : State) : s.pop.env = s.env.next := rfl
@[simp] theorem State.pop_res (s : State) : s.pop.res = s.res := rfl
@[simp] theorem State.pop_port (s : State) : s.pop.port = s.port := rfl
@[simp] theorem State.pop_draws (s : State) : s.pop.draws = s.draws := rfl

/-! ## popHost -/

@[simp] theorem State.popHost_dev (s : State) : s.popHost.dev = s.dev := rfl
@[simp] theorem State.popHost_abuf (s : State) : s.popHost.abuf = s.abuf := rfl
@[simp] theorem State.popHost_dbuf (s : State) : s.popHost.dbuf = s.dbuf := rfl
@[simp] theorem State.popHost_lst (s : State) : s.popHost.lst = s.lst := rfl
@[simp] theorem State.popHost_ph (s : State) : s.popHost.ph = s.ph := rfl
@[simp] theorem State.popHost_att (s : State) : s.popHost.att = s.att := rfl
@[simp] theorem State.popHost_cbh (s : State) : s.popHost.cbh = s.cbh := rfl
@[simp] theorem State.popHost_nah (s : State) : s.popHost.nah = s.nah := rfl
@[simp] theorem State.popHost_bsy (s : State) : s.popHost.bsy = s.bsy := rfl
@[simp] theorem State.popHost_opc (s : State) : s.popHost.opc = s.opc := rfl
@[simp] theorem State.popHost_mem (s : State) : s.popHost.mem = s.mem := rfl
@[simp] theorem State.popHost_armed (s : State) : s.popHost.armed = s.armed := rfl
@[simp] theorem State.popHost_deposited (s : State) : s.popHost.deposited = s.deposited := rfl
@[simp] theorem State.popHost_host (s : State) : s.popHost.host = s.host.tail := rfl
@[simp] theorem State.popHost_env (s : State) : s.popHost.env = s.env := rfl
@[simp] theorem State.popHost_res (s : State) : s.popHost.res = s.res := rfl
@[simp] theorem State.popHost_port (s : State) : s.popHost.port = s.port := rfl
@[simp] theorem State.popHost_draws (s : State) : s.popHost.draws = s.draws := rfl

/-! ## finishWith -/

@[simp] theorem State.finishWith_dev (r : Result) (s : State) : (s.finishWith r).dev = s.dev := rfl
@[simp] theorem State.finishWith_abuf (r : Result) (s : State) : (s.finishWith r).abuf = s.abuf := rfl
@[simp] theorem State.finishWith_dbuf (r : Result) (s : State) : (s.finishWith r).dbuf = s.dbuf := rfl
@[simp] theorem State.finishWith_lst (r : Result) (s : State) : (s.finishWith r).lst = s.lst := rfl
@[simp] theorem State.finishWith_ph (r : Result) (s : State) : (s.finishWith r).ph = s.ph := rfl
@[simp] theorem State.finishWith_att (r : Result) (s : State) : (s.finishWith r).att = s.att := rfl
@[simp] theorem State.finishWith_cbh (r : Result) (s : State) : (s.finishWith r).cbh = s.cbh := rfl
@[simp] theorem State.finishWith_nah (r : Result) (s : State) : (s.finishWith r).nah = s.nah := rfl
@[simp] theorem State.finishWith_bsy (r : Result) (s : State) : (s.finishWith r).bsy = false := rfl
@[simp] theorem State.finishWith_opc (r : Result) (s : State) : (s.finishWith r).opc = s.opc := rfl
@[simp] theorem State.finishWith_mem (r : Result) (s : State) : (s.finishWith r).mem = s.mem := rfl
@[simp] theorem State.finishWith_armed (r : Result) (s : State) : (s.finishWith r).armed = s.armed := rfl
@[simp] theorem State.finishWith_deposited (r : Result) (s : State) : (s.finishWith r).deposited = s.deposited := rfl
@[simp] theorem State.finishWith_host (r : Result) (s : State) : (s.finishWith r).host = s.host := rfl
@[simp] theorem State.finishWith_env (r : Result) (s : State) : (s.finishWith r).env = s.env := rfl
@[simp] theorem State.finishWith_res (r : Result) (s : State) : (s.finishWith r).res = some r := rfl
@[simp] theorem State.finishWith_port (r : Result) (s : State) : (s.finishWith r).port = [] := rfl
@[simp] theorem State.finishWith_draws (r : Result) (s : State) : (s.finishWith r).draws = s.draws := rfl

/-! ## accept -/

@[simp] theorem State.accept_dev (op : BitVec 4) (n : Fin 3) (d r : Byte) (s : State) : (s.accept op n d r).dev = d := rfl
@[simp] theorem State.accept_abuf (op : BitVec 4) (n : Fin 3) (d r : Byte) (s : State) : (s.accept op n d r).abuf = r := rfl
@[simp] theorem State.accept_dbuf (op : BitVec 4) (n : Fin 3) (d r : Byte) (s : State) : (s.accept op n d r).dbuf = s.dbuf := rfl
@[simp] theorem State.accept_lst (op : BitVec 4) (n : Fin 3) (d r : Byte) (s : State) : (s.accept op n d r).lst = s.lst := rfl
@[simp] theorem State.accept_ph (op : BitVec 4) (n : Fin 3) (d r : Byte) (s : State) : (s.accept op n d r).ph = s.ph := rfl
@[simp] theorem State.accept_att (op : BitVec 4) (n : Fin 3) (d r : Byte) (s : State) : (s.accept op n d r).att = n := rfl
@[simp] theorem State.accept_cbh (op : BitVec 4) (n : Fin 3) (d r : Byte) (s : State) : (s.accept op n d r).cbh = s.cbh := rfl
@[simp] theorem State.accept_nah (op : BitVec 4) (n : Fin 3) (d r : Byte) (s : State) : (s.accept op n d r).nah = s.nah := rfl
@[simp] theorem State.accept_bsy (op : BitVec 4) (n : Fin 3) (d r : Byte) (s : State) : (s.accept op n d r).bsy = true := rfl
@[simp] theorem State.accept_opc (op : BitVec 4) (n : Fin 3) (d r : Byte) (s : State) : (s.accept op n d r).opc = op := rfl
@[simp] theorem State.accept_mem (op : BitVec 4) (n : Fin 3) (d r : Byte) (s : State) : (s.accept op n d r).mem = s.mem := rfl
@[simp] theorem State.accept_armed (op : BitVec 4) (n : Fin 3) (d r : Byte) (s : State) : (s.accept op n d r).armed = s.armed := rfl
@[simp] theorem State.accept_deposited (op : BitVec 4) (n : Fin 3) (d r : Byte) (s : State) : (s.accept op n d r).deposited = s.deposited := rfl
@[simp] theorem State.accept_host (op : BitVec 4) (n : Fin 3) (d r : Byte) (s : State) : (s.accept op n d r).host = s.host := rfl
@[simp] theorem State.accept_env (op : BitVec 4) (n : Fin 3) (d r : Byte) (s : State) : (s.accept op n d r).env = s.env := rfl
@[simp] theorem State.accept_res (op : BitVec 4) (n : Fin 3) (d r : Byte) (s : State) : (s.accept op n d r).res = none := rfl
@[simp] theorem State.accept_port (op : BitVec 4) (n : Fin 3) (d r : Byte) (s : State) : (s.accept op n d r).port = [] := rfl
@[simp] theorem State.accept_draws (op : BitVec 4) (n : Fin 3) (d r : Byte) (s : State) : (s.accept op n d r).draws = s.draws := rfl

/-! ## acceptWrite -/

@[simp] theorem State.acceptWrite_dev (op : BitVec 4) (d r v : Byte) (s : State) : (s.acceptWrite op d r v).dev = d := rfl
@[simp] theorem State.acceptWrite_abuf (op : BitVec 4) (d r v : Byte) (s : State) : (s.acceptWrite op d r v).abuf = r := rfl
@[simp] theorem State.acceptWrite_dbuf (op : BitVec 4) (d r v : Byte) (s : State) : (s.acceptWrite op d r v).dbuf = v := rfl
@[simp] theorem State.acceptWrite_lst (op : BitVec 4) (d r v : Byte) (s : State) : (s.acceptWrite op d r v).lst = s.lst := rfl
@[simp] theorem State.acceptWrite_ph (op : BitVec 4) (d r v : Byte) (s : State) : (s.acceptWrite op d r v).ph = s.ph := rfl
@[simp] theorem State.acceptWrite_att (op : BitVec 4) (d r v : Byte) (s : State) : (s.acceptWrite op d r v).att = Config.wrAttempts := rfl
@[simp] theorem State.acceptWrite_cbh (op : BitVec 4) (d r v : Byte) (s : State) : (s.acceptWrite op d r v).cbh = s.cbh := rfl
@[simp] theorem State.acceptWrite_nah (op : BitVec 4) (d r v : Byte) (s : State) : (s.acceptWrite op d r v).nah = s.nah := rfl
@[simp] theorem State.acceptWrite_bsy (op : BitVec 4) (d r v : Byte) (s : State) : (s.acceptWrite op d r v).bsy = true := rfl
@[simp] theorem State.acceptWrite_opc (op : BitVec 4) (d r v : Byte) (s : State) : (s.acceptWrite op d r v).opc = op := rfl
@[simp] theorem State.acceptWrite_mem (op : BitVec 4) (d r v : Byte) (s : State) : (s.acceptWrite op d r v).mem = s.mem := rfl
@[simp] theorem State.acceptWrite_armed (op : BitVec 4) (d r v : Byte) (s : State) : (s.acceptWrite op d r v).armed = s.armed := rfl
@[simp] theorem State.acceptWrite_deposited (op : BitVec 4) (d r v : Byte) (s : State) : (s.acceptWrite op d r v).deposited = s.deposited := rfl
@[simp] theorem State.acceptWrite_host (op : BitVec 4) (d r v : Byte) (s : State) : (s.acceptWrite op d r v).host = s.host := rfl
@[simp] theorem State.acceptWrite_env (op : BitVec 4) (d r v : Byte) (s : State) : (s.acceptWrite op d r v).env = s.env := rfl
@[simp] theorem State.acceptWrite_res (op : BitVec 4) (d r v : Byte) (s : State) : (s.acceptWrite op d r v).res = none := rfl
@[simp] theorem State.acceptWrite_port (op : BitVec 4) (d r v : Byte) (s : State) : (s.acceptWrite op d r v).port = [] := rfl
@[simp] theorem State.acceptWrite_draws (op : BitVec 4) (d r v : Byte) (s : State) : (s.acceptWrite op d r v).draws = s.draws := rfl

/-! ## drawDbuf -/

@[simp] theorem State.drawDbuf_dev (s : State) : s.drawDbuf.dev = s.dev := rfl
@[simp] theorem State.drawDbuf_abuf (s : State) : s.drawDbuf.abuf = s.abuf := rfl
@[simp] theorem State.drawDbuf_dbuf (s : State) : s.drawDbuf.dbuf = Config.any8 s.draws := rfl
@[simp] theorem State.drawDbuf_lst (s : State) : s.drawDbuf.lst = s.lst := rfl
@[simp] theorem State.drawDbuf_ph (s : State) : s.drawDbuf.ph = s.ph := rfl
@[simp] theorem State.drawDbuf_att (s : State) : s.drawDbuf.att = s.att := rfl
@[simp] theorem State.drawDbuf_cbh (s : State) : s.drawDbuf.cbh = s.cbh := rfl
@[simp] theorem State.drawDbuf_nah (s : State) : s.drawDbuf.nah = s.nah := rfl
@[simp] theorem State.drawDbuf_bsy (s : State) : s.drawDbuf.bsy = s.bsy := rfl
@[simp] theorem State.drawDbuf_opc (s : State) : s.drawDbuf.opc = s.opc := rfl
@[simp] theorem State.drawDbuf_mem (s : State) : s.drawDbuf.mem = s.mem := rfl
@[simp] theorem State.drawDbuf_armed (s : State) : s.drawDbuf.armed = s.armed := rfl
@[simp] theorem State.drawDbuf_deposited (s : State) : s.drawDbuf.deposited = s.deposited := rfl
@[simp] theorem State.drawDbuf_host (s : State) : s.drawDbuf.host = s.host := rfl
@[simp] theorem State.drawDbuf_env (s : State) : s.drawDbuf.env = s.env := rfl
@[simp] theorem State.drawDbuf_res (s : State) : s.drawDbuf.res = s.res := rfl
@[simp] theorem State.drawDbuf_port (s : State) : s.drawDbuf.port = s.port := rfl
@[simp] theorem State.drawDbuf_draws (s : State) : s.drawDbuf.draws = s.draws + 1 := rfl

/-! ## attemptEnds -/

@[simp] theorem attemptEnds_dev (s : State) : (attemptEnds s).dev = s.dev := rfl
@[simp] theorem attemptEnds_abuf (s : State) : (attemptEnds s).abuf = s.abuf := rfl
@[simp] theorem attemptEnds_dbuf (s : State) : (attemptEnds s).dbuf = s.dbuf := rfl
@[simp] theorem attemptEnds_lst (s : State) : (attemptEnds s).lst = s.lst := rfl
@[simp] theorem attemptEnds_ph (s : State) : (attemptEnds s).ph = .idle := rfl
@[simp] theorem attemptEnds_att (s : State) : (attemptEnds s).att = attemptUsed s.att := rfl
@[simp] theorem attemptEnds_cbh (s : State) : (attemptEnds s).cbh = s.cbh := rfl
@[simp] theorem attemptEnds_nah (s : State) : (attemptEnds s).nah = s.nah := rfl
@[simp] theorem attemptEnds_bsy (s : State) : (attemptEnds s).bsy = s.bsy := rfl
@[simp] theorem attemptEnds_opc (s : State) : (attemptEnds s).opc = s.opc := rfl
@[simp] theorem attemptEnds_mem (s : State) : (attemptEnds s).mem = s.mem := rfl
@[simp] theorem attemptEnds_armed (s : State) : (attemptEnds s).armed = s.armed := rfl
@[simp] theorem attemptEnds_deposited (s : State) : (attemptEnds s).deposited = s.deposited := rfl
@[simp] theorem attemptEnds_host (s : State) : (attemptEnds s).host = s.host := rfl
@[simp] theorem attemptEnds_env (s : State) : (attemptEnds s).env = s.env := rfl
@[simp] theorem attemptEnds_res (s : State) : (attemptEnds s).res = none := rfl
@[simp] theorem attemptEnds_port (s : State) : (attemptEnds s).port = [] := rfl
@[simp] theorem attemptEnds_draws (s : State) : (attemptEnds s).draws = s.draws := rfl

end Sys2Proof.Machine
end

