-- ==== Sys2Proof/Laws/Step.lean ====
section
/-! SUPPORT. What a step, an attempt's step and each shared operation can do, said once; later proofs cite these and do
not unfold the step function. -/

namespace Sys2Proof.Machine

/-! ## The three kinds of step -/

theorem step_busy {s : State} (h : s.bsy = true) : step s = .next (busyStep s) := by simp [step, nextTurn, h]

theorem step_idle {s : State} (h : s.bsy = false) (hw : s.cmdWord = none) :
    step s = .next (idleStep s.popHost) := by simp [step, nextTurn, h, hw]

theorem step_accepts {s : State} {w : Word32} {i : Instr} (h : s.bsy = false) (hw : s.cmdWord = some w)
    (hd : decode w = .ok i) : step s = exec i s.popHost := by simp [step, nextTurn, h, hw, acceptWord, hd]

theorem step_refuses {s : State} {w : Word32} {e : DecodeError} (h : s.bsy = false) (hw : s.cmdWord = some w)
    (hd : decode w = .error e) : step s = .next (raiseError .illegalCommand s.popHost) := by
  simp [step, nextTurn, h, hw, acceptWord, hd]

@[simp] theorem cmdWord_cons (w : Option Word32) (s : State) (rest : List (Option Word32)) (h : s.host = w :: rest) :
    s.cmdWord = w := by cases w <;> simp [State.cmdWord, h]

/-! ## What exec can do -/

/-- The outcomes of acceptance: an error or an encoder result, which changes the ports only; or a write or a read loaded. -/
theorem exec_cases (i : Instr) (s : State) :
    (∃ r, exec i s = .next (s.emit r)) ∨
    (∃ op d r v, writeOpcode op ∧ exec i s = .next (s.acceptWrite op d r v)) ∨
    (∃ d r, i = .rd d r ∧ exec i s = .next (s.accept 0x4#4 Config.rdAttempts d r).drawDbuf) := by
  cases i with
  | enca sc re od =>
    refine .inl ?_
    simp only [exec, execEnca, raiseError]
    split
    · split <;> exact ⟨_, rfl⟩
    · exact ⟨_, rfl⟩
  | encm m r => exact .inl ⟨_, rfl⟩
  | wr d r v => exact .inr (.inl ⟨_, _, _, _, .inl rfl, rfl⟩)
  | rd d r => exact .inr (.inr ⟨_, _, rfl, rfl⟩)
  | cfga sc re od =>
    simp only [exec, execCfga, raiseError]
    split
    · split
      · exact .inr (.inl ⟨_, _, _, _, .inr (.inl rfl), rfl⟩)
      · exact .inl ⟨_, rfl⟩
    · exact .inl ⟨_, rfl⟩
  | cfgm m r => exact .inr (.inl ⟨_, _, _, _, .inr (.inr rfl), rfl⟩)

/-- Every step is a step in flight, an idle step, a result without a register change, or an acceptance. -/
theorem step_cases (s : State) :
    (s.bsy = true ∧ step s = .next (busyStep s)) ∨
    (s.bsy = false ∧ s.cmdWord = none ∧ step s = .next (idleStep s.popHost)) ∨
    (s.bsy = false ∧ (∃ w, s.cmdWord = some w) ∧ ∃ r, step s = .next (s.popHost.emit r)) ∨
    (s.bsy = false ∧ (∃ w, s.cmdWord = some w) ∧
      ∃ op d r v, writeOpcode op ∧ step s = .next (s.popHost.acceptWrite op d r v)) ∨
    (s.bsy = false ∧ (∃ w, s.cmdWord = some w) ∧
      ∃ d r, step s = .next (s.popHost.accept 0x4#4 Config.rdAttempts d r).drawDbuf) := by
  cases hb : s.bsy with
  | true => exact .inl ⟨rfl, step_busy hb⟩
  | false =>
    cases hw : s.cmdWord with
    | none => exact .inr (.inl ⟨rfl, rfl, step_idle hb hw⟩)
    | some w =>
      cases hd : decode w with
      | error e => exact .inr (.inr (.inl ⟨rfl, ⟨w, rfl⟩, _, step_refuses hb hw hd⟩))
      | ok i =>
        rw [step_accepts hb hw hd]
        rcases exec_cases i s.popHost with ⟨r, h⟩ | ⟨op, d, r, v, ho, h⟩ | ⟨d, r, -, h⟩
        · exact .inr (.inr (.inl ⟨rfl, ⟨w, rfl⟩, r, h⟩))
        · exact .inr (.inr (.inr (.inl ⟨rfl, ⟨w, rfl⟩, op, d, r, v, ho, h⟩)))
        · exact .inr (.inr (.inr (.inr ⟨rfl, ⟨w, rfl⟩, d, r, h⟩)))

/-! ## Moves of the environment -/

@[simp] theorem Environment.move_cons (m : EnvMove) (rest : List EnvMove) (b : Beyond) :
    Environment.move ⟨m :: rest, b⟩ = some m := rfl

@[simp] theorem Environment.next_cons (m : EnvMove) (rest : List EnvMove) (b : Beyond) :
    Environment.next ⟨m :: rest, b⟩ = ⟨rest, b⟩ := rfl

@[simp] theorem Environment.move_silent : Environment.move ⟨[], .silent⟩ = none := rfl

@[simp] theorem Environment.move_cycle (m : EnvMove) (others : List EnvMove) :
    Environment.move ⟨[], .cycle m others⟩ = some m := rfl

@[simp] theorem Environment.move_free (n : Nat) : Environment.move ⟨[], .free n⟩ = some (Config.anyMove n) := rfl

/-- An environment without a next move is silent, and stays so. -/
theorem Environment.next_of_silent {e : Environment} (h : e.move = none) : e.next = e := by
  obtain ⟨_ | _, _ | _ | _⟩ := e <;> first | rfl | cases h

theorem noMoveBefore_of_move {e : Environment} {m : EnvMove} (h : e.move = some m) (hm : m.isAutonomous = false) :
    NoMoveBefore e := by
  intro x hx
  rw [h] at hx
  cases hx
  exact hm

theorem noMoveBefore_of_silent {e : Environment} (h : e.move = none) : NoMoveBefore e := by
  intro x hx
  rw [h] at hx
  cases hx

/-! ## What a step in flight can do -/

/-- The outside world moves first. -/
theorem busyStep_cases (s : State) :
    (∃ d r b, s.env.move = some (.cell d r b) ∧ busyStep s = cellChanges d r b s.pop) ∨
    (s.env.move = some .reset ∧ busyStep s = s.pop.resetAll) ∨
    (NoMoveBefore s.env ∧ busyStep s = attemptStep s) := by
  unfold busyStep
  cases he : s.env.move with
  | none => exact .inr (.inr ⟨noMoveBefore_of_silent he, rfl⟩)
  | some m =>
    cases m with
    | cell d r b => exact .inl ⟨d, r, b, rfl, rfl⟩
    | reset => exact .inr (.inl ⟨rfl, rfl⟩)
    | _ => exact .inr (.inr ⟨noMoveBefore_of_move he rfl, rfl⟩)

theorem busyStep_attempt {s : State} (h : NoMoveBefore s.env) : busyStep s = attemptStep s := by
  rcases busyStep_cases s with ⟨d, r, b, he, -⟩ | ⟨he, -⟩ | ⟨-, h⟩
  · exact absurd (h (.cell d r b) he) (by simp [EnvMove.isAutonomous])
  · exact absurd (h .reset he) (by simp [EnvMove.isAutonomous])
  · exact h

/-- The outside world, or nothing, while the block waits. -/
theorem idleStep_cases (s : State) :
    (∃ d r b, s.env.move = some (.cell d r b) ∧ idleStep s = cellChanges d r b s.pop) ∨
    (s.env.move = some .reset ∧ idleStep s = s.pop.resetBlock) ∨
    (NoMoveBefore s.env ∧ idleStep s = s.say []) := by
  unfold idleStep
  cases he : s.env.move with
  | none => exact .inr (.inr ⟨noMoveBefore_of_silent he, rfl⟩)
  | some m =>
    cases m with
    | cell d r b => exact .inl ⟨d, r, b, rfl, rfl⟩
    | reset => exact .inr (.inl ⟨rfl, rfl⟩)
    | _ => exact .inr (.inr ⟨noMoveBefore_of_move he rfl, rfl⟩)

/-- The four set-up steps, told apart by what has been set up. -/
theorem setUp_cases (s : State) :
    (s.armed = none ∧ setUp s = setBuf s) ∨
    (s.armed ≠ none ∧ s.cbh = .none ∧ setUp s = setCb s) ∨
    (s.armed ≠ none ∧ s.cbh ≠ .none ∧ s.nah = .none ∧ setUp s = setNack s) ∨
    (s.armed ≠ none ∧ s.cbh ≠ .none ∧ s.nah ≠ .none ∧ setUp s = start s) := by
  unfold setUp
  split
  · exact .inl ⟨‹_›, rfl⟩
  · split
    · exact .inr (.inl ⟨‹_›, ‹_›, rfl⟩)
    · split
      · exact .inr (.inr (.inl ⟨‹_›, ‹_›, ‹_›, rfl⟩))
      · exact .inr (.inr (.inr ⟨‹_›, ‹_›, ‹_›, rfl⟩))

/-- A poll is busy and changes nothing but the ports, or closes the attempt with its status. -/
theorem closeCall_cases (st : Status) (s : State) :
    (st = Config.stBusy ∧ closeCall st s = s.say [.tClose st]) ∨
    (st ≠ Config.stBusy ∧ closeCall st s =
      { s.say [.tClose st] with lst := st, ph := .closed, cbh := .none, nah := .none, armed := none }) := by
  unfold closeCall
  split
  · rename_i h
    exact .inl ⟨h, by rw [h]; rfl⟩
  · exact .inr ⟨‹_›, rfl⟩

@[simp] theorem busyPoll_eq (s : State) : busyPoll s = s.say [.tClose Config.stBusy] := rfl

@[simp] theorem closeCall_busy (s : State) : closeCall Config.stBusy s = s.say [.tClose Config.stBusy] := by
  simp [closeCall]

/-- Everything a step of a transfer can do, with the move that made it do so. -/
theorem transfer_cases (s : State) :
    (∃ items, transfer s = s.pop.say items) ∨
    (s.env.move = some .complete ∧ s.cbh = .wrStage ∧
      transfer s = handlerFires .dataPhaseSent .continueWrite s.pop) ∨
    (s.env.move = some .complete ∧ s.cbh = .rdStage ∧
      transfer s = handlerFires .dataPhaseReceived .restartRead s.pop) ∨
    (∃ b, s.env.move = some (.deposit b) ∧ s.ph = .dataPhaseReceived ∧ s.deposited = false ∧
      transfer s = { s.pop.say [.deposit b] with dbuf := b, deposited := true }) ∨
    (s.env.move = some .store ∧ s.ph = .dataPhaseSent ∧
      transfer s = { s.pop.say [] with mem := s.mem.write (cellAddr s.dev s.abuf) s.dbuf }) ∨
    (∃ st, s.env.move = some (.status st) ∧ st ≠ Config.stBusy ∧
      transfer s = { s.pop.say [.tClose st] with lst := st, ph := .closed, cbh := .none, nah := .none, armed := none }) := by
  unfold transfer
  split
  · rename_i he
    unfold onComplete
    cases hc : s.cbh with
    | none => exact .inl ⟨[.complete, .answer .finish], by simp [hc]⟩
    | wrStage => exact .inr (.inl ⟨he, rfl, by simp [hc]⟩)
    | rdStage => exact .inr (.inr (.inl ⟨he, rfl, by simp [hc]⟩))
  · unfold onAddrNack
    split
    · exact .inl ⟨_, rfl⟩
    · exact .inl ⟨_, busyPoll_eq _⟩
  · rename_i b he
    unfold onDeposit
    split
    · rename_i ha
      simp only [depositAllowed, Bool.and_eq_true, decide_eq_true_eq, Bool.not_eq_true'] at ha
      exact .inr (.inr (.inr (.inl ⟨b, he, ha.1, ha.2, rfl⟩)))
    · exact .inl ⟨_, busyPoll_eq _⟩
  · rename_i he
    unfold onStore
    split
    · exact .inr (.inr (.inr (.inr (.inl ⟨he, ‹_›, rfl⟩))))
    · exact .inl ⟨_, busyPoll_eq _⟩
  · rename_i st he
    rcases closeCall_cases st s.pop with ⟨-, h⟩ | ⟨hb, h⟩
    · exact .inl ⟨_, h⟩
    · exact .inr (.inr (.inr (.inr (.inr ⟨st, he, hb, h⟩))))
  · exact .inl ⟨_, busyPoll_eq _⟩

/-- The ends of an attempt: a write's result, a clean read, an exhausted read, or the second attempt of a read. -/
theorem finish_cases (s : State) :
    (s.isRead = false ∧ finish s = (attemptEnds s).finishWith (.done s.lst 0)) ∨
    (s.isRead = true ∧ s.lst = Config.stNoErr ∧
      finish s = { (attemptEnds s).finishWith (.done s.lst s.dbuf) with att := 0 }) ∨
    (s.isRead = true ∧ s.lst ≠ Config.stNoErr ∧ attemptUsed s.att = 0 ∧
      finish s = { (attemptEnds s).finishWith (.done s.lst (Config.any8 s.draws)) with draws := s.draws + 1 }) ∨
    (s.isRead = true ∧ s.lst ≠ Config.stNoErr ∧ attemptUsed s.att ≠ 0 ∧ finish s = (attemptEnds s).drawDbuf) := by
  unfold finish finishRead finishWrite
  cases hr : s.isRead with
  | false => exact .inl ⟨rfl, by simp⟩
  | true =>
    by_cases hl : s.lst = Config.stNoErr
    · exact .inr (.inl ⟨rfl, hl, by simp [hl]⟩)
    · by_cases ha : attemptUsed s.att = 0
      · exact .inr (.inr (.inl ⟨rfl, hl, ha, by simp [hl, ha]⟩))
      · exact .inr (.inr (.inr ⟨rfl, hl, ha, by simp [hl, ha]⟩))

/-- An attempt's step by phase. -/
theorem attemptStep_cases (s : State) :
    (s.ph = .idle ∧ attemptStep s = acquire s) ∨
    (s.ph = .busAcquired ∧ attemptStep s = setUp s) ∨
    (s.ph.inTransfer = true ∧ attemptStep s = transfer s) ∨
    (s.ph = .closed ∧ attemptStep s = finish s) := by
  cases h : s.ph <;> simp [attemptStep, h, Phase.inTransfer]

/-- Acquisition: refused, with nothing changed, or granted. -/
theorem acquire_cases (s : State) :
    (acquire s = s.pop.say [.tOpen s.dev false]) ∨
    (s.env.move = some (.grant true) ∧
      acquire s = { s.pop.say [.tOpen s.dev true] with ph := .busAcquired }) := by
  unfold acquire
  cases ha : openAnswer s.env.move with
  | false => exact .inl (by simp [openCall]; rfl)
  | true =>
    refine .inr ?_
    match he : s.env.move, ha with
    | some (.grant g), ha =>
      simp only [openAnswer] at ha
      exact ⟨by rw [ha], by simp [openCall]⟩

/-! ## Parameters and counters -/

theorem isRead_iff (s : State) : s.isRead = true ↔ s.opc = 0x4#4 := by simp [State.isRead]

theorem isRead_false_iff (s : State) : s.isRead = false ↔ s.opc ≠ 0x4#4 := by simp [State.isRead]

theorem writeOpcode_ne_read {op : BitVec 4} (h : writeOpcode op) : op ≠ 0x4#4 := by
  rcases h with rfl | rfl | rfl <;> decide

/-- 00_scope R8: the two codes the block compares with differ. -/
theorem stNoErr_ne_stBusy : Config.stNoErr ≠ Config.stBusy := by
  unfold Config.stBusy
  split
  · exact fun h => by
      have h1 := congrArg BitVec.toNat h
      have := Config.stNoErr.isLt
      simp at h1
      omega
  · exact fun h => by simp_all

@[simp] theorem attemptUsed_val (n : Fin 3) : (attemptUsed n).val = n.val - 1 := rfl
@[simp] theorem attemptUsed_one : attemptUsed 1 = 0 := rfl
@[simp] theorem attemptUsed_two : attemptUsed 2 = 1 := rfl

end Sys2Proof.Machine
end

