-- ==== Sys2Proof/Laws/Invariant.lean ====
section
/-! SUPPORT. What each operation does to the invariant of 10_state R40; the case of a whole step is left to the claims. -/

namespace Sys2Proof.Machine

/-- A quiescent state with memory in its canonical form and nothing armed. -/
theorem Quiescent.inv {s : State} (h : Quiescent s) (hm : s.mem.wf) (ha : s.armed = none) : Inv s := by
  obtain ⟨hb, hp, ht, hc, hn⟩ := h
  constructor <;> first | exact hm | simp [hb, hp, ht, hc, hn, ha, Quiescent, Phase.inTransfer]

/-! ## Moves of the outside world and silent steps -/

theorem Inv.cellChanges {s : State} (d r b : Byte) (h : Inv s) : Inv (cellChanges d r b s.pop) := by
  obtain ⟨h1, h2, h3, h4, h5, h6, h7, h8, h9, h10, h11, h12, h13, h14, h15, h16⟩ := h
  exact ⟨Memory.wf_write _ h1 (cellAddr_lt _ _), h2, h3, h4, h5, h6, h7, h8, h9, h10, h11, h12, h13, h14, h15, h16⟩

theorem Inv.say {s : State} {items : List PortItem} {env : Environment} {host : List (Option Word32)} (h : Inv s) :
    Inv { s.say items with env := env, host := host } := by
  obtain ⟨h1, h2, h3, h4, h5, h6, h7, h8, h9, h10, h11, h12, h13, h14, h15, h16⟩ := h
  exact ⟨h1, h2, h3, h4, h5, h6, h7, h8, h9, h10, h11, h12, h13, h14, h15, h16⟩

theorem Inv.popHost {s : State} (h : Inv s) : Inv s.popHost := by
  obtain ⟨h1, h2, h3, h4, h5, h6, h7, h8, h9, h10, h11, h12, h13, h14, h15, h16⟩ := h
  exact ⟨h1, h2, h3, h4, h5, h6, h7, h8, h9, h10, h11, h12, h13, h14, h15, h16⟩

theorem inv_resetBlock {s : State} (hm : s.mem.wf) (ha : s.armed = none) : Inv s.resetBlock := by
  constructor <;> first | exact hm | simp [State.resetBlock, Quiescent, ha, Phase.inTransfer]

theorem inv_resetAll (s : State) : Inv s.resetAll := by
  constructor <;> first
    | exact Memory.wf_nil
    | simp [State.resetAll, State.resetBlock, Quiescent, Phase.inTransfer]

/-! ## Acceptance -/

theorem Inv.emit {s : State} (r : Result) (h : Inv s) : Inv (s.emit r) := by
  obtain ⟨h1, h2, h3, h4, h5, h6, h7, h8, h9, h10, h11, h12, h13, h14, h15, h16⟩ := h
  exact ⟨h1, h2, h3, h4, h5, h6, h7, h8, h9, h10, h11, h12, h13, h14, h15, h16⟩

theorem Inv.acceptWrite {s : State} {op : BitVec 4} (d r v : Byte) (h : Inv s) (hb : s.bsy = false)
    (ho : writeOpcode op) : Inv (s.acceptWrite op d r v) := by
  obtain ⟨-, hph, -, hc, hn⟩ := h.quiet hb
  have ha := (h.noAttempt (.inl hph)).2.2
  constructor <;> first | exact h.memory | simp [Config.wrAttempts, hph, hc, hn, ha, ho, Phase.inTransfer]

theorem Inv.acceptRead {s : State} (d r : Byte) (h : Inv s) (hb : s.bsy = false) :
    Inv (s.accept 0x4#4 Config.rdAttempts d r).drawDbuf := by
  obtain ⟨-, hph, -, hc, hn⟩ := h.quiet hb
  have ha := (h.noAttempt (.inl hph)).2.2
  constructor <;> first | exact h.memory | simp [Config.rdAttempts, hph, hc, hn, ha, Phase.inTransfer]

/-! ## The attempt -/

theorem Inv.acquire {s : State} (hi : Inv s) (hp : s.ph = .idle) (hb : s.bsy = true) : Inv (acquire s) := by
  have hn := hi.noAttempt (.inl hp)
  obtain ⟨h1, h2, h3, h4, h5, h6, h7, h8, h9, h10, h11, h12, h13, h14, h15, h16⟩ := hi
  rcases acquire_cases s with h | ⟨-, h⟩ <;> rw [h]
  · exact ⟨h1, h2, h3, h4, h5, h6, h7, h8, h9, h10, h11, h12, h13, h14, h15, h16⟩
  · constructor <;> first | exact h1 | simp_all [Phase.inTransfer]

theorem Inv.setUp {s : State} (hi : Inv s) (hp : s.ph = .busAcquired) (hb : s.bsy = true) : Inv (setUp s) := by
  have hs := hi.settingUp hp
  obtain ⟨h1, h2, h3, h4, h5, h6, h7, h8, h9, h10, h11, h12, h13, h14, h15, h16⟩ := hi
  rcases setUp_cases s with ⟨_, h⟩ | ⟨_, _, h⟩ | ⟨_, _, _, h⟩ | ⟨ha, _, hn, h⟩ <;> rw [h]
  · constructor <;> first | exact h1 | simp_all [Phase.inTransfer, setBuf, State.isRead]
  · cases hr : s.isRead <;> constructor <;> first | exact h1 | simp_all [Phase.inTransfer, setCb, stageHandler, State.isRead]
  · constructor <;> first | exact h1 | simp_all [Phase.inTransfer, setNack, State.isRead]
  · have ha' : s.armed = some .abuf := by
      cases hx : s.armed with
      | none => exact absurd hx ha
      | some b => cases b <;> simp_all
    have hn' : s.nah = .retry := by cases hx : s.nah <;> simp_all
    constructor <;> first | exact h1 | simp_all [Phase.inTransfer, start, State.isRead]

theorem Inv.transfer {s : State} (hi : Inv s) (hb : s.bsy = true) (hp : s.ph.inTransfer = true) : Inv (transfer s) := by
  have hi' := hi
  obtain ⟨h1, h2, h3, h4, h5, h6, h7, h8, h9, h10, h11, h12, h13, h14, h15, h16⟩ := hi'
  have hne : s.ph ≠ .idle ∧ s.ph ≠ .closed ∧ s.ph ≠ .busAcquired := by cases hx : s.ph <;> simp_all [Phase.inTransfer]
  rcases transfer_cases s with ⟨_, h⟩ | ⟨-, hc, h⟩ | ⟨-, hc, h⟩ | ⟨_, -, hpp, -, h⟩ | ⟨-, hpp, h⟩ |
    ⟨_, -, hst, h⟩ <;> rw [h]
  · exact hi.say (env := s.env.next) (host := s.host)
  · have : s.opc ≠ 0x4#4 := (isRead_false_iff s).mp (h10 hc)
    constructor <;> first | exact h1 | simp_all [handlerFires, Phase.inTransfer, State.isRead]
  · have : s.opc = 0x4#4 := (isRead_iff s).mp (h11 hc)
    constructor <;> first | exact h1 | simp_all [handlerFires, Phase.inTransfer, State.isRead]
  · constructor <;> first | exact h1 | simp_all [Phase.inTransfer, State.isRead]
  · constructor <;> first | exact Memory.wf_write _ h1 (cellAddr_lt _ _) | simp_all [Phase.inTransfer, State.isRead]
  · constructor <;> first | exact h1 | simp_all [Phase.inTransfer, State.isRead]

theorem Inv.finish {s : State} (hi : Inv s) (hb : s.bsy = true) (hp : s.ph = .closed) : Inv (finish s) := by
  have h1 := hi.memory
  have h6 := hi.attempts
  have h7 := hi.latch hb
  obtain ⟨ha, hn, hc⟩ := hi.noAttempt (.inr hp)
  have hy : ∀ n : Fin 3, n ≤ 1 → attemptUsed n = 0 := by decide
  have hz : ∀ n : Fin 3, attemptUsed n ≤ 1 := by decide
  have hv : ∀ n : Fin 3, n ≠ 0 → 1 ≤ n := by decide
  clear hi
  rcases finish_cases s with ⟨hr, h⟩ | ⟨-, -, h⟩ | ⟨-, -, h0, h⟩ | ⟨-, -, h0, h⟩ <;> rw [h] <;> clear h
  · have hr : s.opc ≠ 0x4#4 := (isRead_false_iff s).mp hr
    have := hy _ (h6.resolve_right hr)
    constructor <;> first | exact h1 | simp [Quiescent, Phase.inTransfer, *]
  · constructor <;> first | exact h1 | simp [Quiescent, Phase.inTransfer, *]
  · constructor <;> first | exact h1 | simp [Quiescent, Phase.inTransfer, *]
  · have := hv _ h0
    constructor <;> first | exact h1 | exact fun _ => h7 | simp [Quiescent, Phase.inTransfer, *]

/-- A step with a command in flight keeps the invariant. -/
theorem Inv.busyStep {s : State} (hi : Inv s) (hb : s.bsy = true) : Inv (busyStep s) := by
  rcases busyStep_cases s with ⟨d, r, b, -, h⟩ | ⟨-, h⟩ | ⟨-, h⟩ <;> rw [h]
  · exact hi.cellChanges d r b
  · exact inv_resetAll _
  · rcases attemptStep_cases s with ⟨hp, h⟩ | ⟨hp, h⟩ | ⟨hp, h⟩ | ⟨hp, h⟩ <;> rw [h]
    · exact hi.acquire hp hb
    · exact hi.setUp hp hb
    · exact hi.transfer hb hp
    · exact hi.finish hb hp

end Sys2Proof.Machine
end

