-- ==== Sys2Proof/Laws/Run.lean ====
section
/-! SUPPORT. Runs as chains of steps. -/

namespace Sys2Proof.Machine

theorem Reaches.refl (s : State) : Reaches 0 s s := rfl

theorem reaches_zero {s t : State} : Reaches 0 s t ↔ s = t := by
  constructor
  · intro h
    cases h
    rfl
  · rintro rfl
    rfl

/-- One step, then the rest. -/
theorem reaches_succ {n : Nat} {s u : State} (h : step s = .next u) (t : State) :
    Reaches (n + 1) s t ↔ Reaches n u t := by
  have hc : Sys2Proof.core.step s = .next u := h
  simp [Reaches, Host.Core.run, hc]

theorem Reaches.head {n : Nat} {s u t : State} (h : step s = .next u) (hr : Reaches n u t) : Reaches (n + 1) s t :=
  (reaches_succ h t).mpr hr

theorem Reaches.one {s t : State} (h : step s = .next t) : Reaches 1 s t := .head h (.refl t)

theorem Reaches.trans {m n : Nat} {s u t : State} (h1 : Reaches m s u) (h2 : Reaches n u t) :
    Reaches (m + n) s t := by
  induction m generalizing s with
  | zero =>
    rw [reaches_zero] at h1
    rwa [h1, Nat.zero_add]
  | succ m ih =>
    rw [show m + 1 + n = (m + n) + 1 by omega]
    cases hs : step s with
    | next v => exact .head hs (ih ((reaches_succ hs u).mp h1))
    | fault r =>
      have hc : Sys2Proof.core.step s = .fault r := hs
      simp [Reaches, Host.Core.run, hc] at h1
    | refused r =>
      have hc : Sys2Proof.core.step s = .refused r := hs
      simp [Reaches, Host.Core.run, hc] at h1

@[simp] theorem portTrace_zero (s : State) : portTrace 0 s = [] := rfl

theorem portTrace_succ {n : Nat} {s u : State} (h : step s = .next u) :
    portTrace (n + 1) s = u.port ++ portTrace n u := by
  simp [portTrace, h]

/-- The trace of a run in two parts. -/
theorem portTrace_add {m n : Nat} {s u : State} (h : Reaches m s u) :
    portTrace (m + n) s = portTrace m s ++ portTrace n u := by
  induction m generalizing s with
  | zero =>
    rw [reaches_zero] at h
    simp [h]
  | succ m ih =>
    rw [show m + 1 + n = (m + n) + 1 by omega]
    cases hs : step s with
    | next v =>
      rw [portTrace_succ hs, portTrace_succ hs, ih ((reaches_succ hs u).mp h), List.append_assoc]
    | fault r =>
      have hc : Sys2Proof.core.step s = .fault r := hs
      simp [Reaches, Host.Core.run, hc] at h
    | refused r =>
      have hc : Sys2Proof.core.step s = .refused r := hs
      simp [Reaches, Host.Core.run, hc] at h

end Sys2Proof.Machine
end

