-- ==== Sys2Proof/Laws/Attempt.lean ====
section
/-! SUPPORT. One attempt as a run (42_transaction R131): waiting for the bus, setting up, polling until the status comes.
What is said once here carries the claims about whole transactions. -/

namespace Sys2Proof.Machine

/-- What the steps of an attempt leave alone: the latch, the address, the attempts left, the command port, the draws. -/
structure Held (s t : State) : Prop where
  dev : t.dev = s.dev
  abuf : t.abuf = s.abuf
  opc : t.opc = s.opc
  att : t.att = s.att
  bsy : t.bsy = s.bsy
  host : t.host = s.host
  draws : t.draws = s.draws

theorem Held.refl (s : State) : Held s s := ⟨rfl, rfl, rfl, rfl, rfl, rfl, rfl⟩

theorem Held.trans {s t u : State} (h : Held s t) (k : Held t u) : Held s u :=
  ⟨k.dev.trans h.dev, k.abuf.trans h.abuf, k.opc.trans h.opc, k.att.trans h.att, k.bsy.trans h.bsy,
    k.host.trans h.host, k.draws.trans h.draws⟩

theorem Held.isRead {s t : State} (h : Held s t) : t.isRead = s.isRead := by simp [State.isRead, h.opc]

/-! ## Sequences of moves -/

theorem Environment.begins_append {a b : List EnvMove} {e rest : Environment} :
    Environment.Begins (a ++ b) e rest ↔ ∃ mid, Environment.Begins a e mid ∧ Environment.Begins b mid rest := by
  induction a generalizing e with
  | nil => simp [Environment.Begins]
  | cons m a ih => simp [Environment.Begins, ih, and_assoc]

@[simp] theorem Environment.begins_cons {m : EnvMove} {moves : List EnvMove} {e rest : Environment} :
    Environment.Begins (m :: moves) e rest ↔ e.move = some m ∧ Environment.Begins moves e.next rest := .rfl

@[simp] theorem Environment.begins_nil {e rest : Environment} : Environment.Begins [] e rest ↔ e = rest := .rfl

/-- Moves written out are made, one after the other. -/
theorem Environment.begins_coming (moves rest : List EnvMove) (b : Beyond) :
    Environment.Begins moves ⟨moves ++ rest, b⟩ ⟨rest, b⟩ := by
  induction moves with
  | nil => rfl
  | cons m moves ih => exact ⟨rfl, ih⟩

theorem Environment.begins_only (moves : List EnvMove) : Environment.Begins moves (.only moves) (.only []) := by
  simpa [Environment.only] using Environment.begins_coming moves [] .silent

/-- What holds of every move holds of the next one. -/
theorem Environment.Always.head {p : EnvMove → Prop} {e : Environment} (h : e.Always p) {m : EnvMove}
    (hm : e.move = some m) : p m := h 0 m hm

theorem Environment.Always.tail {p : EnvMove → Prop} {e : Environment} (h : e.Always p) : e.next.Always p :=
  fun n m hm => h (n + 1) m hm

theorem Environment.always_silent (p : EnvMove → Prop) : Environment.Always p (.only []) := by
  intro n m hm
  have h : ∀ n, Environment.drop n (.only []) = .only [] := by
    intro n
    induction n with
    | zero => rfl
    | succ n ih => exact ih
  rw [h n] at hm
  cases hm

theorem Environment.always_repeated {p : EnvMove → Prop} {m : EnvMove} (hp : p m) :
    Environment.Always p ⟨[], .cycle m []⟩ := by
  intro n x hx
  have h : ∀ n, Environment.drop n ⟨[], .cycle m []⟩ = ⟨[], .cycle m []⟩ := by
    intro n
    induction n with
    | zero => rfl
    | succ n ih => exact ih
  rw [h n] at hx
  cases hx
  exact hp

/-! ## Single steps -/

theorem Inv.step_busy {s u : State} (hi : Inv s) (hb : s.bsy = true) (h : step s = .next u) : Inv u := by
  rw [Machine.step_busy hb] at h
  cases h
  exact hi.busyStep hb

/-- The step Finish. -/
theorem step_finish {s : State} (hb : s.bsy = true) (hp : s.ph = .closed) (hn : NoMoveBefore s.env) :
    step s = .next (finish s) := by
  rw [step_busy hb, busyStep_attempt hn]
  simp [attemptStep, hp]

/-- A step of a transfer. -/
theorem step_transfer {s : State} (hb : s.bsy = true) (hp : s.ph.inTransfer = true) (hn : NoMoveBefore s.env) :
    step s = .next (transfer s) := by
  rw [step_busy hb, busyStep_attempt hn]
  cases h : s.ph <;> simp_all [attemptStep, Phase.inTransfer]

/-- A call of `T.open`. -/
theorem step_acquire {s : State} (hb : s.bsy = true) (hp : s.ph = .idle) (hn : NoMoveBefore s.env) :
    step s = .next (acquire s) := by
  rw [step_busy hb, busyStep_attempt hn]
  simp [attemptStep, hp]

/-- A set-up step. -/
theorem step_setUp {s : State} (hb : s.bsy = true) (hp : s.ph = .busAcquired) (hn : NoMoveBefore s.env) :
    step s = .next (setUp s) := by
  rw [step_busy hb, busyStep_attempt hn]
  simp [attemptStep, hp]

/-! ## Waiting for the bus -/

/-- One move that keeps an acquisition waiting. -/
theorem wait_step {s : State} {m : EnvMove} (hb : s.bsy = true) (hp : s.ph = .idle)
    (he : s.env.move = some m) (hm : m.keepsWaiting = true) :
    ∃ u, step s = .next u ∧ u.ph = .idle ∧ u.env = s.env.next ∧ Held s u ∧ u.dbuf = s.dbuf := by
  rw [step_busy hb]
  refine ⟨_, rfl, ?_⟩
  rcases busyStep_cases s with ⟨d, r, b, -, hs⟩ | ⟨he', -⟩ | ⟨-, hs⟩
  · rw [hs]
    exact ⟨hp, rfl, ⟨rfl, rfl, rfl, rfl, rfl, rfl, rfl⟩, rfl⟩
  · rw [he] at he'
    cases he'
    cases hm
  · rw [hs]
    simp only [attemptStep, hp]
    rcases acquire_cases s with h | ⟨he', -⟩
    · rw [h]
      exact ⟨hp, rfl, ⟨rfl, rfl, rfl, rfl, rfl, rfl, rfl⟩, rfl⟩
    · rw [he] at he'
      cases he'
      cases hm

/-- Any number of them. -/
theorem wait_run {s : State} (moves : List EnvMove) (rest : Environment) (hi : Inv s) (hb : s.bsy = true)
    (hp : s.ph = .idle) (he : Environment.Begins moves s.env rest) (hm : ∀ m ∈ moves, m.keepsWaiting = true) :
    ∃ t, Reaches moves.length s t ∧ Inv t ∧ t.ph = .idle ∧ t.env = rest ∧ Held s t ∧ t.dbuf = s.dbuf := by
  induction moves generalizing s with
  | nil => exact ⟨s, .refl s, hi, hp, he, .refl s, rfl⟩
  | cons m moves ih =>
    obtain ⟨u, hu, hup, hue, hs, hd⟩ := wait_step hb hp he.1 (hm m List.mem_cons_self)
    obtain ⟨t, ht, hti, htp, hte, hst, htd⟩ :=
      ih (hi.step_busy hb hu) (hs.bsy.trans hb) hup (hue ▸ he.2) fun m h => hm m (List.mem_cons_of_mem _ h)
    exact ⟨t, .head hu ht, hti, htp, hte, hs.trans hst, htd.trans hd⟩

/-! ## Setting up -/

theorem stageHandler_ne_none (s : State) : stageHandler s ≠ .none := by
  unfold stageHandler
  split <;> simp

theorem stageHandler_setBuf (s : State) : stageHandler (setBuf s) = stageHandler s := rfl

/-- The four set-up steps from a state that has just got the bus: where they lead. -/
theorem setUp_run {s : State} (hb : s.bsy = true) (hp : s.ph = .busAcquired) (ha : s.armed = none) (hc : s.cbh = .none)
    (hn : s.nah = .none) (hm : NoMoveBefore s.env) :
    Reaches 4 s { s with
      armed := some .abuf, cbh := stageHandler s, nah := .retry, ph := .addressPhaseSent, deposited := false,
      port := [.tStart], res := none } ∧
    portTrace 4 s = [.tSetbuf .abuf 1, .tSetcb (stageHandler s) .dbuf, .tSetnack .retry, .tStart] := by
  have hst : ∀ t : State, (setCb t).cbh ≠ .none := stageHandler_ne_none
  have h1 : step s = .next (setBuf s) := by rw [step_setUp hb hp hm, setUp, if_pos ha]
  have h2 : step (setBuf s) = .next (setCb (setBuf s)) := by
    rw [step_setUp (by simpa [setBuf] using hb) (by simpa [setBuf] using hp) (by simpa [setBuf] using hm), setUp,
      if_neg (by simp [setBuf]), if_pos (by simpa [setBuf] using hc)]
  have h3 : step (setCb (setBuf s)) = .next (setNack (setCb (setBuf s))) := by
    rw [step_setUp (by simpa [setCb, setBuf] using hb) (by simpa [setCb, setBuf] using hp)
      (by simpa [setCb, setBuf] using hm), setUp, if_neg (by simp [setCb, setBuf]), if_neg (hst _),
      if_pos (by simpa [setCb, setBuf] using hn)]
  have h4 : step (setNack (setCb (setBuf s))) = .next (start (setNack (setCb (setBuf s)))) := by
    rw [step_setUp (by simpa [setNack, setCb, setBuf] using hb) (by simpa [setNack, setCb, setBuf] using hp)
      (by simpa [setNack, setCb, setBuf] using hm), setUp, if_neg (by simp [setNack, setCb, setBuf]),
      if_neg (by simpa [setNack] using hst (setBuf s)), if_neg (by simp [setNack])]
  have he : start (setNack (setCb (setBuf s))) = { s with
      armed := some .abuf, cbh := stageHandler s, nah := .retry, ph := .addressPhaseSent, deposited := false,
      port := [.tStart], res := none } := by
    simp only [setCb, stageHandler_setBuf]
    simp [setBuf, setNack, start, State.say]
  rw [← he]
  exact ⟨.head (n := 3) h1 (.head (n := 2) h2 (.head (n := 1) h3 (.one h4))), by
    rw [portTrace_succ h1, portTrace_succ h2, portTrace_succ h3, portTrace_succ h4]
    simp only [setCb, stageHandler_setBuf]
    simp [setBuf, setNack, start, Config.bufLen]⟩

/-! ## Polling -/

/-- One move that leaves the transfer in progress. -/
theorem keep_step {s : State} {m : EnvMove} (hi : Inv s) (hb : s.bsy = true)
    (hp : s.ph.inTransfer = true) (he : s.env.move = some m) (hm : m.keepsTransferring) :
    ∃ u, step s = .next u ∧ u.ph.inTransfer = true ∧ u.env = s.env.next ∧ Held s u ∧ (s.isRead = false → u.dbuf = s.dbuf) := by
  rw [step_busy hb]
  refine ⟨_, rfl, ?_⟩
  rcases busyStep_cases s with ⟨d, r, b, -, hs⟩ | ⟨he', -⟩ | ⟨hn, hs⟩
  · rw [hs]
    exact ⟨hp, rfl, ⟨rfl, rfl, rfl, rfl, rfl, rfl, rfl⟩, fun _ => rfl⟩
  · rw [he] at he'
    cases he'
    exact hm.elim
  · have ht : attemptStep s = transfer s := by cases h : s.ph <;> simp_all [attemptStep, Phase.inTransfer]
    rw [hs, ht]
    rcases transfer_cases s with ⟨_, h⟩ | ⟨-, -, h⟩ | ⟨-, -, h⟩ | ⟨_, -, hpp, -, h⟩ | ⟨-, -, h⟩ |
      ⟨st, he', hst, -⟩
    · rw [h]
      exact ⟨hp, rfl, ⟨rfl, rfl, rfl, rfl, rfl, rfl, rfl⟩, fun _ => rfl⟩
    · rw [h]
      exact ⟨rfl, rfl, ⟨rfl, rfl, rfl, rfl, rfl, rfl, rfl⟩, fun _ => rfl⟩
    · rw [h]
      exact ⟨rfl, rfl, ⟨rfl, rfl, rfl, rfl, rfl, rfl, rfl⟩, fun _ => rfl⟩
    · rw [h]
      refine ⟨hp, rfl, ⟨rfl, rfl, rfl, rfl, rfl, rfl, rfl⟩, fun hr => ?_⟩
      exact absurd (hi.receivedByRead hpp) ((isRead_false_iff s).mp hr)
    · rw [h]
      exact ⟨hp, rfl, ⟨rfl, rfl, rfl, rfl, rfl, rfl, rfl⟩, fun _ => rfl⟩
    · rw [he] at he'
      cases he'
      exact absurd hm hst

/-- Any number of them. -/
theorem keep_run {s : State} (moves : List EnvMove) (rest : Environment) (hi : Inv s) (hb : s.bsy = true)
    (hp : s.ph.inTransfer = true) (he : Environment.Begins moves s.env rest) (hm : ∀ m ∈ moves, m.keepsTransferring) :
    ∃ t, Reaches moves.length s t ∧ Inv t ∧ t.ph.inTransfer = true ∧ t.env = rest ∧ Held s t ∧
      (s.isRead = false → t.dbuf = s.dbuf) := by
  induction moves generalizing s with
  | nil => exact ⟨s, .refl s, hi, hp, he, .refl s, fun _ => rfl⟩
  | cons m moves ih =>
    obtain ⟨u, hu, hup, hue, hs, hd⟩ := keep_step hi hb hp he.1 (hm m List.mem_cons_self)
    obtain ⟨t, ht, hti, htp, hte, hst, htd⟩ :=
      ih (hi.step_busy hb hu) (hs.bsy.trans hb) hup (hue ▸ he.2) fun m h => hm m (List.mem_cons_of_mem _ h)
    exact ⟨t, .head hu ht, hti, htp, hte, hs.trans hst, fun hr => (htd (hs.isRead.trans hr)).trans (hd hr)⟩

/-- The poll that ends an attempt. -/
theorem step_close {s : State} {st : Status} (hb : s.bsy = true) (hp : s.ph.inTransfer = true)
    (he : s.env.move = some (.status st)) (hst : st ≠ Config.stBusy) :
    step s = .next { s with
      env := s.env.next, port := [.tClose st], res := none, lst := st, ph := .closed, cbh := .none, nah := .none,
      armed := none } := by
  rw [step_transfer hb hp (noMoveBefore_of_move he rfl)]
  simp [transfer, he, closeCall, hst, State.pop, State.say]

/-! ## A whole attempt -/

/-- How many set-up calls are still to be made. -/
def setUpLeft (s : State) : Nat :=
  if s.ph = .busAcquired then
    1 + (if s.armed = none then 1 else 0) + (if s.cbh = .none then 1 else 0) + (if s.nah = .none then 1 else 0)
  else 0

/-- A step while the attempt is being set up: a cell changes, or one set-up call fewer is left. -/
theorem setUp_step {s : State} {m : EnvMove} (hi : Inv s) (hb : s.bsy = true)
    (hp : s.ph = .busAcquired) (he : s.env.move = some m) (hm : m.isReset = false) :
    ∃ u, step s = .next u ∧ Held s u ∧ u.dbuf = s.dbuf ∧
      ((m.isAutonomous = true ∧ u.ph = .busAcquired ∧ u.env = s.env.next ∧ setUpLeft u = setUpLeft s) ∨
       (u.env = s.env ∧ setUpLeft u + 1 = setUpLeft s ∧ (u.ph = .busAcquired ∨ u.ph.inTransfer = true))) := by
  rw [step_busy hb]
  refine ⟨_, rfl, ?_⟩
  rcases busyStep_cases s with ⟨d, r, b, he', hs⟩ | ⟨he', -⟩ | ⟨-, hs⟩
  · rw [hs]
    rw [he] at he'
    cases he'
    exact ⟨⟨rfl, rfl, rfl, rfl, rfl, rfl, rfl⟩, rfl, .inl ⟨rfl, hp, rfl, rfl⟩⟩
  · rw [he] at he'
    cases he'
    cases hm
  · rw [hs]
    simp only [attemptStep, hp]
    have hset := hi.settingUp hp
    have hst := stageHandler_ne_none s
    rcases setUp_cases s with ⟨h1, h⟩ | ⟨h1, h2, h⟩ | ⟨h1, h2, h3, h⟩ | ⟨h1, h2, h3, h⟩ <;> rw [h] <;>
      refine ⟨⟨rfl, rfl, rfl, rfl, rfl, rfl, rfl⟩, rfl, .inr ⟨rfl, ?_, ?_⟩⟩
    · simp [setUpLeft, setBuf, hp, h1]
      omega
    · exact .inl hp
    · simp [setUpLeft, setCb, hp, h1, h2, hst]
      omega
    · exact .inl hp
    · simp [setUpLeft, setNack, hp, h1, h2, h3]
    · exact .inl hp
    · simp [setUpLeft, start, hp, h1, h2, h3]
    · exact .inr rfl

/-- From the grant on: set-up, events and busy polls, then the status. -/
theorem granted_run (k : Nat) {s : State} {st : Status} (events : List EnvMove) (rest : Environment)
    (hk : setUpLeft s + events.length ≤ k) (hi : Inv s) (hb : s.bsy = true)
    (hp : s.ph = .busAcquired ∨ s.ph.inTransfer = true) (he : Environment.Begins (events ++ [.status st]) s.env rest)
    (hm : ∀ m ∈ events, m.keepsTransferring) (hst : st ≠ Config.stBusy) :
    ∃ n t, Reaches n s t ∧ Inv t ∧ t.ph = .closed ∧ t.lst = st ∧ t.env = rest ∧ Held s t ∧
      (s.isRead = false → t.dbuf = s.dbuf) := by
  induction k generalizing s events with
  | zero =>
    have hp : s.ph.inTransfer = true := by
      rcases hp with hp | hp
      · simp [setUpLeft, hp] at hk
      · exact hp
    obtain rfl : events = [] := List.eq_nil_of_length_eq_zero (by omega)
    have h := step_close hb hp he.1 hst
    exact ⟨1, _, .one h, hi.step_busy hb h, rfl, rfl, he.2, ⟨rfl, rfl, rfl, rfl, rfl, rfl, rfl⟩, fun _ => rfl⟩
  | succ k ih =>
    rcases hp with hp | hp
    · obtain ⟨m, more, hme, hmr⟩ : ∃ m more, events ++ [.status st] = m :: more ∧ m.isReset = false := by
        cases events with
        | nil => exact ⟨_, _, rfl, rfl⟩
        | cons m events =>
          refine ⟨m, _, rfl, ?_⟩
          have := hm m List.mem_cons_self
          cases m <;> first | rfl | exact this.elim
      have he' := he
      rw [hme] at he'
      obtain ⟨u, hu, hs, hd, ⟨ha, hup, hue, hl⟩ | ⟨hue, hl, hup⟩⟩ := setUp_step hi hb hp he'.1 hmr
      · cases events with
        | nil =>
          cases hme
          cases ha
        | cons m' events =>
          cases hme
          obtain ⟨n, t, h1, h2, h3, h4, h5, h6, h7⟩ := ih events
            (by simp only [List.length_cons] at hk; omega) (hi.step_busy hb hu) (hs.bsy.trans hb) (.inl hup) (hue ▸ he'.2)
            fun m h => hm m (List.mem_cons_of_mem _ h)
          exact ⟨n + 1, t, .head hu h1, h2, h3, h4, h5, hs.trans h6, fun hr => (h7 (hs.isRead.trans hr)).trans hd⟩
      · obtain ⟨n, t, h1, h2, h3, h4, h5, h6, h7⟩ := ih events (by omega) (hi.step_busy hb hu) (hs.bsy.trans hb) hup
          (hue ▸ he) hm
        exact ⟨n + 1, t, .head hu h1, h2, h3, h4, h5, hs.trans h6, fun hr => (h7 (hs.isRead.trans hr)).trans hd⟩
    · obtain ⟨mid, hev, hfin⟩ := Environment.begins_append.mp he
      obtain ⟨t, h1, h2, h3, h4, h5, h6⟩ := keep_run events mid hi hb hp hev hm
      rw [← h4] at hfin
      have h := step_close (h5.bsy.trans hb) h3 hfin.1 hst
      exact ⟨_, _, h1.trans (.one h), h2.step_busy (h5.bsy.trans hb) h, rfl, rfl, hfin.2,
        h5.trans ⟨rfl, rfl, rfl, rfl, rfl, rfl, rfl⟩, h6⟩

/-- Under the premises of `AttemptScript` an attempt closes with its status, the latch and the address as they were. -/
theorem attempt_run {s : State} {st : Status} {script : List EnvMove} {rest : Environment} (hi : Inv s) (hb : s.bsy = true)
    (hp : s.ph = .idle) (he : Environment.Begins script s.env rest) (hs : AttemptScript st script) :
    ∃ n t, Reaches n s t ∧ Inv t ∧ t.ph = .closed ∧ t.lst = st ∧ t.env = rest ∧ Held s t ∧
      (s.isRead = false → t.dbuf = s.dbuf) := by
  obtain ⟨hst, waiting, events, rfl, hw, hm⟩ := hs
  rw [List.append_assoc] at he
  obtain ⟨mid, hwait, hgrant⟩ := Environment.begins_append.mp he
  obtain ⟨t, h1, h2, h3, h4, h5, h6⟩ := wait_run waiting mid hi hb hp hwait hw
  rw [← h4] at hgrant
  have hu := step_acquire (h5.bsy.trans hb) h3 (noMoveBefore_of_move hgrant.1 rfl)
  have ha : acquire t = openCall true t.pop := by simp [acquire, openAnswer, hgrant.1]
  rw [ha] at hu
  obtain ⟨n, v, q1, q2, q3, q4, q5, q6, q7⟩ := granted_run _ (s := openCall true t.pop) events rest (Nat.le_refl _)
    (h2.step_busy (h5.bsy.trans hb) hu) (h5.bsy.trans hb) (.inl rfl) hgrant.2 hm hst
  refine ⟨_, v, h1.trans (.head hu q1), q2, q3, q4, q5, h5.trans ((⟨rfl, rfl, rfl, rfl, rfl, rfl, rfl⟩ : Held t
    (openCall true t.pop)).trans q6), fun hr => ?_⟩
  exact (q7 (h5.isRead.trans hr)).trans h6

end Sys2Proof.Machine
end

