-- ==== Sys2Proof/Laws/Decode.lean ====
section
/-! SUPPORT. Fields, fixed bits and formats as arithmetic on the word, and the ordinals as inverses: what the encoding
statements need of the bit operations. -/

namespace Sys2Proof

/-! ## Ordinals are one to one (30_encoding R88) -/

@[simp] theorem Scale.ofOrdinal_ordinal (s : Scale) : Scale.ofOrdinal s.ordinal = s := by cases s <;> rfl

@[simp] theorem Scale.ordinal_ofOrdinal (v : BitVec 2) : (Scale.ofOrdinal v).ordinal = v := by revert v; decide

@[simp] theorem Resolution.ofOrdinal_ordinal (r : Resolution) : Resolution.ofOrdinal r.ordinal = some r := by
  cases r <;> rfl

theorem Resolution.ordinal_of_ofOrdinal {v : BitVec 2} {r : Resolution} (h : Resolution.ofOrdinal v = some r) :
    r.ordinal = v := by
  revert h v
  cases r <;> decide

@[simp] theorem MagMode.ofOrdinal_ordinal (m : MagMode) : MagMode.ofOrdinal m.ordinal = some m := by cases m <;> rfl

theorem MagMode.ordinal_of_ofOrdinal {v : BitVec 2} {m : MagMode} (h : MagMode.ofOrdinal v = some m) :
    m.ordinal = v := by
  revert h v
  cases m <;> decide

theorem Resolution.ofOrdinal_eq_none (v : BitVec 2) : Resolution.ofOrdinal v = none ↔ v.toNat = 3 := by
  revert v
  decide

theorem MagMode.ofOrdinal_eq_none (v : BitVec 2) : MagMode.ofOrdinal v = none ↔ v.toNat = 3 := by
  revert v
  decide

@[simp] theorem Opcode.ofBits_op (o : Opcode) : Opcode.ofBits o.row.op = some o := by cases o <;> rfl

theorem Opcode.op_of_ofBits {b : BitVec 4} {o : Opcode} (h : Opcode.ofBits b = some o) : b = o.row.op := by
  revert h b
  cases o <;> decide

theorem Opcode.ofBits_eq_none (b : BitVec 4) : Opcode.ofBits b = none ↔ b.toNat = 0 ∨ 7 ≤ b.toNat := by
  revert b
  decide

theorem odrMember_iff (odr : Odr) : odrMember odr = true ↔ odr.toNat ≤ 10 := by
  simp [odrMember, Config.odrLast, BitVec.le_def]

/-! ## Fields of a word (R81) -/

theorem fieldOp_toNat (w : Word32) : (fieldOp w).toNat = w.toNat / 2 ^ 28 := by
  have := w.isLt
  simp only [fieldOp, BitVec.extractLsb'_toNat, Nat.shiftRight_eq_div_pow]
  omega

theorem fieldDev_toNat (w : Word32) : (fieldDev w).toNat = w.toNat / 2 ^ 16 % 2 ^ 8 := by
  simp only [fieldDev, BitVec.extractLsb'_toNat, Nat.shiftRight_eq_div_pow]

theorem fieldReg_toNat (w : Word32) : (fieldReg w).toNat = w.toNat / 2 ^ 8 % 2 ^ 8 := by
  simp only [fieldReg, BitVec.extractLsb'_toNat, Nat.shiftRight_eq_div_pow]

theorem fieldVal_toNat (w : Word32) : (fieldVal w).toNat = w.toNat % 2 ^ 8 := by
  simp only [fieldVal, BitVec.extractLsb'_toNat, Nat.shiftRight_eq_div_pow, Nat.pow_zero, Nat.div_one]

theorem fieldOdr_toNat (w : Word32) : (fieldOdr w).toNat = w.toNat / 2 ^ 4 % 2 ^ 4 := by
  simp only [fieldOdr, BitVec.extractLsb'_toNat, Nat.shiftRight_eq_div_pow]

theorem fieldScale_toNat (w : Word32) : (fieldScale w).toNat = w.toNat / 2 ^ 2 % 2 ^ 2 := by
  simp only [fieldScale, BitVec.extractLsb'_toNat, Nat.shiftRight_eq_div_pow]

theorem fieldRes_toNat (w : Word32) : (fieldRes w).toNat = w.toNat % 2 ^ 2 := by
  simp only [fieldRes, BitVec.extractLsb'_toNat, Nat.shiftRight_eq_div_pow, Nat.pow_zero, Nat.div_one]

theorem fieldModr_toNat (w : Word32) : (fieldModr w).toNat = w.toNat / 2 ^ 2 % 2 ^ 2 := by
  simp only [fieldModr, BitVec.extractLsb'_toNat, Nat.shiftRight_eq_div_pow]

theorem fieldMode_toNat (w : Word32) : (fieldMode w).toNat = w.toNat % 2 ^ 2 := by
  simp only [fieldMode, BitVec.extractLsb'_toNat, Nat.shiftRight_eq_div_pow, Nat.pow_zero, Nat.div_one]

/-! ## Formats (R81) -/

theorem toNat_append_add {m n : Nat} (x : BitVec m) (y : BitVec n) : (x ++ y).toNat = x.toNat * 2 ^ n + y.toNat := by
  rw [BitVec.toNat_append, ← Nat.shiftLeft_add_eq_or_of_lt y.isLt, Nat.shiftLeft_eq]

theorem formatA_toNat (op : BitVec 4) (scale : Scale) (res : Resolution) (odr : Odr) :
    (formatA op scale res odr).toNat =
      op.toNat * 2 ^ 28 + odr.toNat * 2 ^ 4 + scale.ordinal.toNat * 2 ^ 2 + res.ordinal.toNat := by
  simp only [formatA, toNat_append_add, BitVec.toNat_ofNat, BitVec.ofNat_eq_ofNat]
  omega

theorem formatM_toNat (op : BitVec 4) (mode : MagMode) (modr : MagOdr) :
    (formatM op mode modr).toNat = op.toNat * 2 ^ 28 + modr.toNat * 2 ^ 2 + mode.ordinal.toNat := by
  simp only [formatM, toNat_append_add, BitVec.toNat_ofNat, BitVec.ofNat_eq_ofNat]
  omega

theorem formatT_toNat (op : BitVec 4) (dev reg val : Byte) :
    (formatT op dev reg val).toNat = op.toNat * 2 ^ 28 + dev.toNat * 2 ^ 16 + reg.toNat * 2 ^ 8 + val.toNat := by
  simp only [formatT, toNat_append_add, BitVec.toNat_ofNat, BitVec.ofNat_eq_ofNat]
  omega

/-! ## Fixed bits (R84) -/

/-- Masking the bits from `k` up. -/
theorem and_high_toNat (w : Word32) (k : Nat) :
    (w &&& (BitVec.allOnes 32 <<< k)).toNat = w.toNat / 2 ^ k * 2 ^ k := by
  have h : w &&& (BitVec.allOnes 32 <<< k) = (w >>> k) <<< k := by
    ext i hi
    simp only [BitVec.getElem_and, BitVec.getElem_shiftLeft, BitVec.getElem_allOnes, BitVec.getElem_ushiftRight]
    by_cases hik : i < k
    · simp [hik]
    · have : k + (i - k) = i := by omega
      simp [hik, this, BitVec.getLsbD_eq_getElem hi]
  have hlt : w.toNat / 2 ^ k * 2 ^ k < 2 ^ 32 := Nat.lt_of_le_of_lt (Nat.div_mul_le_self _ _) w.isLt
  rw [h, BitVec.toNat_shiftLeft, BitVec.toNat_ushiftRight, Nat.shiftRight_eq_div_pow, Nat.shiftLeft_eq,
    Nat.mod_eq_of_lt hlt]

theorem and_high_eq (w p : Word32) (k q : Nat) (hp : p.toNat = q * 2 ^ k) :
    w &&& (BitVec.allOnes 32 <<< k) = p ↔ w.toNat / 2 ^ k = q := by
  rw [← BitVec.toNat_inj, and_high_toNat w k, hp]
  exact Nat.mul_left_inj (Nat.two_pow_pos k).ne'

theorem and_low_toNat (w : Word32) : (w &&& 0xFF).toNat = w.toNat % 2 ^ 8 := by
  rw [BitVec.toNat_and]
  exact Nat.and_two_pow_sub_one_eq_mod w.toNat 8

/-- When a word has the fixed bits of a row, by arithmetic: the zero fields are zero under the opcode. -/
def fixedBits (o : Opcode) (n : Nat) : Prop :=
  match o with
  | .enca => n / 2 ^ 8 = 0x100000
  | .encm => n / 2 ^ 4 = 0x2000000
  | .wr => n / 2 ^ 24 = 0x30
  | .rd => n / 2 ^ 24 = 0x40 ∧ n % 2 ^ 8 = 0
  | .cfga => n / 2 ^ 8 = 0x500000
  | .cfgm => n / 2 ^ 4 = 0x6000000

theorem mask_eq_pattern (o : Opcode) (w : Word32) : w &&& o.row.mask = o.row.pattern ↔ fixedBits o w.toNat := by
  cases o with
  | enca => exact and_high_eq w 0x10000000 8 _ (by decide)
  | encm => exact and_high_eq w 0x20000000 4 _ (by decide)
  | wr => exact and_high_eq w 0x30000000 24 _ (by decide)
  | cfga => exact and_high_eq w 0x50000000 8 _ (by decide)
  | cfgm => exact and_high_eq w 0x60000000 4 _ (by decide)
  | rd =>
    show w &&& 0xFF0000FF = 0x40000000 ↔ _
    have hl := and_low_toNat w
    have hh := and_high_eq w 0x40000000 24 0x40 (by decide)
    rw [show BitVec.allOnes 32 <<< 24 = (0xFF000000 : Word32) by decide] at hh
    constructor
    · intro h
      have h1 : w &&& 0xFF000000 = 0x40000000 := by
        rw [show (0xFF000000 : Word32) = 0xFF0000FF &&& 0xFF000000 by decide, ← BitVec.and_assoc, h]
        decide
      have h2 : w &&& 0xFF = 0 := by
        rw [show (0xFF : Word32) = 0xFF0000FF &&& 0xFF by decide, ← BitVec.and_assoc, h]
        decide
      exact ⟨hh.mp h1, by rw [← hl, h2]; rfl⟩
    · intro ⟨h1, h2⟩
      have h1 := hh.mpr h1
      have h2 : w &&& 0xFF = 0 := BitVec.eq_of_toNat_eq (hl.trans h2)
      rw [show (0xFF0000FF : Word32) = 0xFF000000 ||| 0xFF by decide]
      have : w &&& (0xFF000000 ||| 0xFF) = (w &&& 0xFF000000) ||| (w &&& 0xFF) := by
        ext i hi
        simp only [BitVec.getElem_and, BitVec.getElem_or, Bool.and_or_distrib_left]
      rw [this, h1, h2]
      decide

/-! ## What decoding answers (R85) -/

theorem accFields_eq_some {w : Word32} {scale : Scale} {res : Resolution} {odr : Odr} :
    accFields w = some (scale, res, odr) ↔
      scale.ordinal = fieldScale w ∧ res.ordinal = fieldRes w ∧ odr = fieldOdr w ∧ odrMember odr = true := by
  unfold accFields
  constructor
  · intro h
    split at h
    · split at h
      · simp only [Option.some.injEq, Prod.mk.injEq] at h
        obtain ⟨rfl, rfl, rfl⟩ := h
        exact ⟨by simp, Resolution.ordinal_of_ofOrdinal ‹_›, rfl, ‹_›⟩
      · cases h
    · cases h
  · rintro ⟨h1, h2, rfl, h4⟩
    rw [← h2, ← h1]
    simp [h4]

theorem magFields_eq_some {w : Word32} {mode : MagMode} {modr : MagOdr} :
    magFields w = some (mode, modr) ↔ mode.ordinal = fieldMode w ∧ modr = fieldModr w := by
  unfold magFields
  constructor
  · intro h
    split at h
    · simp only [Option.some.injEq, Prod.mk.injEq] at h
      obtain ⟨rfl, rfl⟩ := h
      exact ⟨MagMode.ordinal_of_ofOrdinal ‹_›, rfl⟩
    · cases h
  · rintro ⟨h1, rfl⟩
    rw [← h1]
    simp

/-- Decoding succeeds exactly when the four steps of R85 do. -/
theorem decode_eq_ok {w : Word32} {i : Instr} :
    decode w = .ok i ↔
      ∃ o, fieldOp w = o.row.op ∧ w &&& o.row.mask = o.row.pattern ∧ operandsOf o w = some i := by
  unfold decode
  constructor
  · intro h
    split at h
    · cases h
    · rename_i o ho
      split at h
      · split at h
        · cases h
          exact ⟨o, Opcode.op_of_ofBits ho, ‹_›, ‹_›⟩
        · cases h
      · cases h
  · rintro ⟨o, h1, h2, h3⟩
    simp [h1, h2, h3]

end Sys2Proof
end

