-- ==== Sys2Proof/Laws/PerInstr.lean ====
section
/-! SUPPORT. Per command: its word has the opcode and the fixed bits of its row (30_encoding R81, R84). -/

namespace Sys2Proof.Laws.FixedBits

/-- The word of the command has the opcode of its row, and its fixed bits. -/
def Statement (i : Instr) : Prop :=
  fieldOp (encode i) = (opcodeOf i).row.op ∧ encode i &&& (opcodeOf i).row.mask = (opcodeOf i).row.pattern

theorem enca (scale : Scale) (res : Resolution) (odr : Odr) : Statement (.enca scale res odr) := by
  have h := formatA_toNat 0x1 scale res odr
  have := odr.isLt
  have := scale.ordinal.isLt
  have := res.ordinal.isLt
  refine ⟨BitVec.eq_of_toNat_eq ?_, (mask_eq_pattern _ _).mpr ?_⟩
  · rw [fieldOp_toNat, encode, h]
    simp [opcodeOf, Opcode.row]
    omega
  · simp only [fixedBits, opcodeOf, encode, h]
    simp
    omega

theorem encm (mode : MagMode) (modr : MagOdr) : Statement (.encm mode modr) := by
  have h := formatM_toNat 0x2 mode modr
  have := modr.isLt
  have := mode.ordinal.isLt
  refine ⟨BitVec.eq_of_toNat_eq ?_, (mask_eq_pattern _ _).mpr ?_⟩
  · rw [fieldOp_toNat, encode, h]
    simp [opcodeOf, Opcode.row]
    omega
  · simp only [fixedBits, opcodeOf, encode, h]
    simp
    omega

theorem wr (dev reg val : Byte) : Statement (.wr dev reg val) := by
  have h := formatT_toNat 0x3 dev reg val
  have := dev.isLt
  have := reg.isLt
  have := val.isLt
  refine ⟨BitVec.eq_of_toNat_eq ?_, (mask_eq_pattern _ _).mpr ?_⟩
  · rw [fieldOp_toNat, encode, h]
    simp [opcodeOf, Opcode.row]
    omega
  · simp only [fixedBits, opcodeOf, encode, h]
    simp
    omega

theorem rd (dev reg : Byte) : Statement (.rd dev reg) := by
  have h := formatT_toNat 0x4 dev reg 0
  have := dev.isLt
  have := reg.isLt
  refine ⟨BitVec.eq_of_toNat_eq ?_, (mask_eq_pattern _ _).mpr ?_⟩
  · rw [fieldOp_toNat, encode, h]
    simp [opcodeOf, Opcode.row]
    omega
  · simp only [fixedBits, opcodeOf, encode, h]
    simp
    omega

theorem cfga (scale : Scale) (res : Resolution) (odr : Odr) : Statement (.cfga scale res odr) := by
  have h := formatA_toNat 0x5 scale res odr
  have := odr.isLt
  have := scale.ordinal.isLt
  have := res.ordinal.isLt
  refine ⟨BitVec.eq_of_toNat_eq ?_, (mask_eq_pattern _ _).mpr ?_⟩
  · rw [fieldOp_toNat, encode, h]
    simp [opcodeOf, Opcode.row]
    omega
  · simp only [fixedBits, opcodeOf, encode, h]
    simp
    omega

theorem cfgm (mode : MagMode) (modr : MagOdr) : Statement (.cfgm mode modr) := by
  have h := formatM_toNat 0x6 mode modr
  have := modr.isLt
  have := mode.ordinal.isLt
  refine ⟨BitVec.eq_of_toNat_eq ?_, (mask_eq_pattern _ _).mpr ?_⟩
  · rw [fieldOp_toNat, encode, h]
    simp [opcodeOf, Opcode.row]
    omega
  · simp only [fixedBits, opcodeOf, encode, h]
    simp
    omega

end Sys2Proof.Laws.FixedBits
end

