-- ==== Sys2Proof/Tests/Slice0.lean ====
section
/-! SUPPORT. Tests: expected values are the vectors of 95_test_vectors (their ids in the names) or read off the rules; then,
for every statement with hypotheses, a state and operands that meet them. -/

namespace Sys2Proof.Tests

open Sys2Proof Sys2Proof.Machine

/-! ## Well-formedness (30_encoding R84, R89) -/

theorem test_wellFormed_accepts :
    WellFormed (.enca .g16 .r12 10) = true ∧ WellFormed (.cfga .g2 .r10 0) = true ∧ WellFormed (.encm .idle 3) = true ∧
      WellFormed (.wr 0xFF 0xFF 0xFF) = true ∧ WellFormed (.rd 0 0) = true ∧ WellFormed (.cfgm .single 0) = true := by decide

theorem test_wellFormed_refuses_enca_odr : WellFormed (.enca .g2 .r14 11) = false := by decide
theorem test_wellFormed_refuses_cfga_odr : WellFormed (.cfga .g2 .r14 15) = false := by decide

/-! ## Decoding: words from V-DEC1 to V-DEC16 and V-DEC20 to V-DEC29, and the patterns of R84 bit by bit -/

theorem test_decode_unassigned :
    decode 0x00000000 = .error .unassignedOpcode ∧ decode 0x70000000 = .error .unassignedOpcode ∧
      decode 0xFFFFFFFF = .error .unassignedOpcode ∧ decode 0x80000000 = .error .unassignedOpcode ∧
      decode 0xE0000000 = .error .unassignedOpcode := by decide

theorem test_decode_nonZeroField :
    decode 0x10000170 = .error .nonZeroField ∧ decode 0x20000010 = .error .nonZeroField ∧
      decode 0x401E4F01 = .error .nonZeroField ∧ decode 0x311D2068 = .error .nonZeroField ∧
      decode 0x60000100 = .error .nonZeroField ∧ decode 0x58000002 = .error .nonZeroField ∧
      decode 0x44000000 = .error .nonZeroField := by decide

theorem test_decode_notAMember :
    decode 0x100000B0 = .error .notAMember ∧ decode 0x10000003 = .error .notAMember ∧
      decode 0x100000C1 = .error .notAMember ∧ decode 0x20000003 = .error .notAMember ∧
      decode 0x500000F1 = .error .notAMember ∧ decode 0x60000007 = .error .notAMember ∧
      decode 0x50000003 = .error .notAMember := by decide

theorem test_decode_enca :
    decode 0b00010000000000000000000001101010 = .ok (.enca .g8 .r14 6) ∧
      decode 0x100000AD = .ok (.enca .g16 .r12 10) := by decide
theorem test_decode_encm :
    decode 0b00100000000000000000000000001001 = .ok (.encm .single 2) ∧ decode 0x2000000E = .ok (.encm .idle 3) := by decide
theorem test_decode_wr :
    decode 0b00110000000111010010000001101000 = .ok (.wr 0x1D 0x20 0x68) ∧
      decode 0x30FFFFFF = .ok (.wr 0xFF 0xFF 0xFF) := by decide
theorem test_decode_rd :
    decode 0b01000000000111100100111100000000 = .ok (.rd 0x1E 0x4F) ∧ decode 0x40000000 = .ok (.rd 0 0) := by decide
theorem test_decode_cfga :
    decode 0b01010000000000000000000001101010 = .ok (.cfga .g8 .r14 6) ∧ decode 0x50000081 = .ok (.cfga .g2 .r12 8) := by
  decide
theorem test_decode_cfgm :
    decode 0b01100000000000000000000000001100 = .ok (.cfgm .continuous 3) ∧ decode 0x6000000D = .ok (.cfgm .single 3) := by
  decide

theorem test_encode :
    encode (.enca .g8 .r14 6) = 0x1000006A ∧ encode (.encm .single 2) = 0x20000009 ∧
      encode (.wr 0x1D 0x20 0x68) = 0x301D2068 ∧ encode (.rd 0x1E 0x4F) = 0x401E4F00 ∧
      encode (.cfga .g2 .r12 8) = 0x50000081 ∧ encode (.cfgm .continuous 3) = 0x6000000C := by decide

/-- R93: the examples of the written form; the numeral 11 for a rate gives the illegal word V-DEC5. -/
theorem test_assemble :
    (Line.enca 2 2 odr400.toNat).assemble = some 0x1000006A ∧ (Line.cfga 0 1 odr1600.toNat).assemble = some 0x50000081 ∧
      (Line.rd 0x1E 0x4F).assemble = some 0x401E4F00 ∧ (Line.enca 0 0 11).assemble = some 0x100000B0 ∧
      (Line.wr 256 0 0).assemble = none := by decide

theorem test_decodeTableWord :
    decodeTableWord 32 0x301D2068 = some (.wr 0x1D 0x20 0x68) ∧ decodeTableWord 32 0x311D2068 = none := by decide

/-! ## Small states -/

/-- After reset, with a command port and coming moves. -/
def quiet (host : List (Option Word32)) (env : List EnvMove) : State := { State.reset with host := host, env := .only env }

/-- The outcome's next state has the property. -/
def nextHas (p : State → Bool) (o : Outcome) : Bool :=
  match o with
  | .next t => p t
  | .fault _ => false
  | .refused _ => false

/-- The result word of one step, where it has one. -/
def resultIs (w : Word32) (o : Outcome) : Bool := nextHas (fun t => t.resValid && decide (t.resWord = w)) o

/-- A command in flight, as WR 0x1D, 0x20, 0x68 or RD 0x1D, 0x20 leaves it. -/
def flight (op : BitVec 4) (att : Fin 3) (env : List EnvMove) : State :=
  { State.reset with
    dev := 0x1D, abuf := 0x20, dbuf := 0x68, bsy := true, opc := op, att := att, env := .only env, lst := Config.stBusy }

/-- Its attempt after the grant. -/
def acquired (op : BitVec 4) (att : Fin 3) (env : List EnvMove) : State := { flight op att env with ph := .busAcquired }

/-- Its attempt after `T.start`. -/
def started (op : BitVec 4) (att : Fin 3) (env : List EnvMove) : State :=
  { flight op att env with
    ph := .addressPhaseSent, nah := .retry, armed := some .abuf, cbh := if op = 0x4#4 then .rdStage else .wrStage }

/-- Its attempt in the data phase. -/
def inData (op : BitVec 4) (att : Fin 3) (env : List EnvMove) : State :=
  { flight op att env with
    ph := if op = 0x4#4 then .dataPhaseReceived else .dataPhaseSent, nah := .retry, armed := some .dbuf }

/-- Its attempt closed with a status. -/
def closedWith (st : Status) (op : BitVec 4) (att : Fin 3) (env : List EnvMove) : State :=
  { flight op att env with ph := .closed, lst := st }

/-! ## One step, by the vectors -/

/-- V-EA5, V-EA8: the word on the port gives its result word in one step. -/
theorem test_enca_valid :
    resultIs 0x00000068 (step (quiet [some 0x1000006A] [])) = true ∧
      resultIs 0x0000007E (step (quiet [some 0x100000AD] [])) = true := by decide
/-- V-EA4, V-EA12. -/
theorem test_enca_invalid :
    resultIs 0x00010000 (step (quiet [some 0x10000071] [])) = true ∧
      resultIs 0x00010000 (step (quiet [some 0x10000001] [])) = true := by decide
/-- V-EM8, V-EM12. -/
theorem test_encm :
    resultIs 0x00000089 (step (quiet [some 0x20000009] [])) = true ∧
      resultIs 0x0000008E (step (quiet [some 0x2000000E] [])) = true := by decide
/-- PROG4, command 4. -/
theorem test_illegal : resultIs 0x00020000 (step (quiet [some 0x00000000] [])) = true := by decide
/-- V-WR1, accept. -/
theorem test_wr_accepts :
    nextHas (fun t => t.bsy && !t.resValid && decide (t.dev = 0x1D ∧ t.abuf = 0x20 ∧ t.dbuf = 0x68 ∧ t.att = 1))
      (step (quiet [some 0x301D2068] [])) = true := by decide
/-- V-RD1, accept. -/
theorem test_rd_accepts :
    nextHas (fun t => t.bsy && t.isRead && decide (t.dev = 0x1E ∧ t.abuf = 0x4F ∧ t.att = 2))
      (step (quiet [some 0x401E4F00] [])) = true := by decide
/-- V-CFG4, accept: the byte is 0x52, on offset 0x20. -/
theorem test_cfga_accepts :
    nextHas (fun t => t.bsy && decide (t.abuf = 0x20 ∧ t.dbuf = 0x52 ∧ t.opc = 0x5)) (step (quiet [some 0x50000081] [])) =
      true := by decide
/-- V-CFG2. -/
theorem test_cfga_invalid : resultIs 0x00010000 (step (quiet [some 0x50000080] [])) = true := by decide
/-- V-CFG3, accept. -/
theorem test_cfgm_accepts :
    nextHas (fun t => t.bsy && decide (t.abuf = 0x60 ∧ t.dbuf = 0x8C ∧ t.opc = 0x6)) (step (quiet [some 0x6000000C] [])) =
      true := by decide

theorem test_withFetchWord : resultIs 0x00000089 (step (State.reset.withFetchWord 32 0x20000009)) = true := by decide

/-- R86: kind in bits 17:16, status in 15:8, data in 7:0. -/
theorem test_resultWord :
    (Result.done 0x02 0x43).word = 0x00000243 ∧ (⟨.invalidConfiguration, 0, 0⟩ : Result).word = 0x00010000 ∧
      (⟨.illegalCommand, 0, 0⟩ : Result).word = 0x00020000 := by decide

/-- V-WR7: a second COMPLETE is answered FINISH and changes no register. -/
theorem test_second_complete :
    nextHas (fun t => decide (t.port = [.complete, .answer .finish] ∧ t.ph = .dataPhaseSent))
      (step (inData 0x3 1 [.complete])) = true := by decide
/-- V-RD1: the deposit reaches `DBUF`. -/
theorem test_deposit :
    nextHas (fun t => decide (t.dbuf = 0x40 ∧ t.port = [.deposit 0x40])) (step (inData 0x4 2 [.deposit 0x40])) = true := by
  decide
/-- R63: no deposit in the data phase of a write. -/
theorem test_no_deposit_in_write : (onDeposit 0x40 (inData 0x3 1 [])).dbuf = 0x68 := by decide
/-- R68: the device takes the byte. -/
theorem test_store :
    nextHas (fun t => decide (Memory.read t.mem (0x1D * 256 + 0x20) = some 0x68)) (step (inData 0x3 1 [.store])) = true := by
  decide

theorem test_memory_canonical :
    Memory.write (Memory.write [] 7 1) 3 2 = [(3, 2), (7, 1)] ∧ Memory.write [(3, 2), (7, 1)] 7 5 = [(3, 2), (7, 5)] := by
  decide

/-! ## The annex: X3, X4, V-AN1 to V-AN3 -/

theorem test_sext : sext 16 0x8000 = -32768 ∧ sext 16 0x7FFF = 32767 ∧ sext 16 0xFFFF = -1 ∧ axis 0x18 0xFC = -1000 := by
  decide
theorem test_temperature :
    temperature 0x00 = 25 ∧ temperature 0xF6 = 15 ∧ temperature 0x7F = 152 ∧ temperature 0x80 = -103 := by decide
/-- X6. -/
theorem test_online :
    accPresent 0x43 = true ∧ accPresent 0x42 = false ∧ magPresent 0x40 = true ∧ magPresent 0x00 = false := by decide

/-- Exact arithmetic with halves rounded away from zero, the convention of the vectors V-AN. -/
def exactHalfAway : NumberFormat where
  fit x := x
  round x := if 0 ≤ x then ⌊x + 1 / 2⌋ else ⌈x - 1 / 2⌉
  order := .multiplyFirst

/-- X5, V-AN4, V-AN5, V-AN8. -/
theorem test_physicalValue :
    physicalValue exactHalfAway 1000 .g2 = 6 / 100 ∧ physicalValue exactHalfAway 1000 .g16 = 49 / 100 ∧
      physicalValue exactHalfAway (-1000) .g2 = -6 / 100 ∧ physicalValue exactHalfAway 81 .g2 = 0 ∧
      physicalValue exactHalfAway 82 .g2 = 1 / 100 := by
  norm_num [physicalValue, NumberFormat.scaled, NumberFormat.mul, NumberFormat.div, NumberFormat.sensitivity, sensitivity,
    exactHalfAway]

/-- R187: three axes, each with its own raw value. -/
theorem test_physicalSample :
    physicalSample exactHalfAway (1000, -1000, 0) .g2 = (6 / 100, -6 / 100, 0) := by
  norm_num [physicalSample, physicalValue, NumberFormat.scaled, NumberFormat.mul, NumberFormat.div,
    NumberFormat.sensitivity, sensitivity, exactHalfAway]

/-! ## Witnesses: what is needed to meet the hypotheses -/

/-- A failure code exists, whatever the two named codes are. -/
theorem exists_failure : ∃ st : Status, st ≠ Config.stBusy ∧ st ≠ Config.stNoErr := by
  have h : ∀ a b : Status, ∃ st : Status, st ≠ a ∧ st ≠ b := by
    intro a b
    by_cases h0 : a = 0 ∨ b = 0
    · by_cases h1 : a = 1 ∨ b = 1
      · refine ⟨2, fun h => ?_, fun h => ?_⟩ <;> subst h <;> revert h0 h1 <;> simp <;>
          exact fun h => h ▸ by decide
      · exact ⟨1, fun h => h1 (.inl h.symm), fun h => h1 (.inr h.symm)⟩
    · exact ⟨0, fun h => h0 (.inl h.symm), fun h => h0 (.inr h.symm)⟩
  exact h _ _

theorem quiet_quiescent (host : List (Option Word32)) (env : List EnvMove) : Quiescent (quiet host env) :=
  ⟨rfl, rfl, rfl, rfl, rfl⟩

theorem quiet_inv (host : List (Option Word32)) (env : List EnvMove) : Inv (quiet host env) :=
  (quiet_quiescent host env).inv Memory.wf_nil rfl

theorem flight_inv (env : List EnvMove) : Inv (flight 0x3#4 1 env) ∧ Inv (flight 0x4#4 2 env) := by
  refine ⟨?_, ?_⟩ <;> constructor <;> first
    | exact Memory.wf_nil
    | simp [flight, State.reset, Quiescent, Phase.inTransfer, writeOpcode, State.isRead]

theorem acquired_inv (env : List EnvMove) : Inv (acquired 0x3#4 1 env) ∧ Inv (acquired 0x4#4 2 env) := by
  refine ⟨?_, ?_⟩ <;> constructor <;> first
    | exact Memory.wf_nil
    | simp [acquired, flight, State.reset, Quiescent, Phase.inTransfer, writeOpcode, State.isRead]

theorem started_inv (env : List EnvMove) : Inv (started 0x3#4 1 env) ∧ Inv (started 0x4#4 2 env) := by
  refine ⟨?_, ?_⟩ <;> constructor <;> first
    | exact Memory.wf_nil
    | simp [started, flight, State.reset, Quiescent, Phase.inTransfer, writeOpcode, State.isRead]

theorem inData_inv (env : List EnvMove) : Inv (inData 0x3#4 1 env) ∧ Inv (inData 0x4#4 2 env) := by
  refine ⟨?_, ?_⟩ <;> constructor <;> first
    | exact Memory.wf_nil
    | simp [inData, flight, State.reset, Quiescent, Phase.inTransfer, writeOpcode, State.isRead]

theorem closedWith_inv {st : Status} (h : st ≠ Config.stBusy) (env : List EnvMove) :
    Inv (closedWith st 0x3#4 1 env) ∧ Inv (closedWith st 0x4#4 2 env) ∧ Inv (closedWith st 0x4#4 1 env) := by
  refine ⟨?_, ?_, ?_⟩ <;> constructor <;> first
    | exact Memory.wf_nil
    | simp [closedWith, flight, State.reset, Quiescent, Phase.inTransfer, writeOpcode, State.isRead, h]

theorem attemptScript_plain {st : Status} (h : st ≠ Config.stBusy) :
    AttemptScript st [.grant false, .grant true, .complete, .status st] :=
  ⟨h, [.grant false], [.complete], rfl, by simp [EnvMove.keepsWaiting], by simp [EnvMove.keepsTransferring]⟩

/-! ## Witnesses: encoding -/

theorem witness_DecodeEncodeRoundTrip :
    WellFormed (.enca .g8 .r14 0) = true ∧ WellFormed (.enca .g8 .r12 10) = true ∧ WellFormed (.rd 0xFF 0) = true := by
  decide

theorem witness_EncodeDecodeRoundTrip : decode 0x401E4F00 = .ok (.rd 0x1E 0x4F) := by decide

theorem witness_RefusedWordsAreTheIllegalWords :
    (10 : Odr).toNat ≤ 10 ∧ validAcc .r10 10 = false ∧ (7 : Odr).toNat ≤ 10 ∧ validAcc .r12 7 = false ∧
      validAcc .r14 8 = false := by decide

theorem witness_OpcodeRowsAreDisjoint :
    (0x401E4F00 : Word32) &&& Opcode.rd.row.mask = Opcode.rd.row.pattern := by decide

/-! ## Witnesses: ports and errors -/

theorem witness_StepRunsDecodedCommand :
    (quiet [some 0x301D2068] []).bsy = false ∧ (quiet [some 0x301D2068] []).host = some 0x301D2068 :: [] ∧
      decode 0x301D2068 = .ok (.wr 0x1D 0x20 0x68) := by decide

theorem witness_IllegalCommandChangesNothing :
    (quiet [some 0x70000000] []).bsy = false ∧ (quiet [some 0x70000000] []).host = some 0x70000000 :: [] ∧
      IllegalWord 0x70000000 ∧ ∃ e, decode 0x70000000 = .error e :=
  ⟨rfl, rfl, .inr (.inl (by decide)), _, rfl⟩

theorem witness_CommandPortHandshake_ready :
    (quiet [some 0x20000009] []).cmdReady = true ∧ (quiet [some 0x20000009] []).host = some 0x20000009 :: [] ∧
      decode 0x20000009 = .ok (.encm .single 2) ∧ decode 0x20000003 = .error .notAMember := by decide

theorem witness_CommandPortHandshake_notReady :
    (flight 0x3 1 []).cmdReady = false ∧ ∃ t, step (flight 0x3 1 []) = .next t := ⟨rfl, _, rfl⟩

theorem witness_IdleBlockWaits :
    (quiet [none] []).bsy = false ∧ (quiet [none] []).cmdWord = none ∧ NoMoveBefore (quiet [none] []).env :=
  ⟨rfl, rfl, (noMoveBefore_of_silent rfl)⟩

theorem witness_ResultExactlyWhenCommandEnds :
    NoResetNext (quiet [some 0x20000009] []) ∧ ∃ t, step (quiet [some 0x20000009] []) = .next t ∧ t.resValid = true :=
  ⟨nofun, _, rfl, rfl⟩

theorem witness_ErrorPriority_word :
    ∃ t, step (quiet [some 0x70000000] []) = .next t ∧ IllegalWord 0x70000000 ∧
      t.res = some ⟨.illegalCommand, 0, 0⟩ := ⟨_, rfl, .inr (.inl (by decide)), rfl⟩

theorem witness_ErrorPriority_configuration :
    (∃ t, step (quiet [some 0x50000080] []) = .next t) ∧ decode 0x50000080 = .ok (.cfga .g2 .r10 8) ∧
      ¬ IllegalWord 0x50000080 ∧ validAcc .r10 8 = false :=
  ⟨⟨_, rfl⟩, by decide, by unfold IllegalWord; decide, by decide⟩

theorem witness_ErrorPriority_status (st : Status) :
    (closedWith st 0x3 1 []).bsy = true ∧ ∃ t, step (closedWith st 0x3 1 []) = .next t ∧ t.res = some ⟨.done, st, 0⟩ :=
  ⟨rfl, _, rfl, rfl⟩

/-! ## Witnesses: the encoder -/

theorem witness_ValidPairs :
    (0 : Odr).toNat ≤ 10 ∧ (7 : Odr).toNat ≤ 10 ∧ (8 : Odr).toNat ≤ 10 ∧ (10 : Odr).toNat ≤ 10 := by decide

theorem witness_EncaAnswersControlByte :
    validAcc .r10 0 = true ∧ validAcc .r10 7 = true ∧ validAcc .r12 8 = true ∧ validAcc .r12 10 = true ∧
      validAcc .r14 0 = true ∧ validAcc .r14 7 = true := by decide

theorem witness_ControlBytesDetermineConfiguration :
    validAcc .r12 8 = true ∧ encAcc .g16 .r12 8 = encAcc .g16 .r12 8 ∧ encMag .idle 3 = encMag .idle 3 := by decide

theorem witness_ControlRegisterFields : (9 : Odr).toNat ≤ 10 ∧ validAcc .r12 9 = true := by decide

theorem witness_EncoderReadsAndWritesNoRegister :
    (∃ scale res odr, Instr.enca .g2 .r10 8 = .enca scale res odr) ∧ ∃ mode modr, Instr.encm .idle 0 = .encm mode modr :=
  ⟨⟨_, _, _, rfl⟩, _, _, rfl⟩

theorem witness_InvalidConfigurationLeavesNoTrace :
    (∃ t, exec (.cfga .g2 .r12 7) (quiet [] []) = .next t) ∧ (∃ t, exec (.enca .g2 .r14 8) (quiet [] []) = .next t) ∧
      validAcc .r12 7 = false ∧ validAcc .r14 8 = false ∧ ∃ t, exec (.encm .idle 3) (quiet [] []) = .next t :=
  ⟨⟨_, rfl⟩, ⟨_, rfl⟩, by decide, by decide, _, rfl⟩

/-! ## Witnesses: acceptance -/

theorem witness_WriteCommandsAccepted : (8 : Odr).toNat ≤ 10 ∧ validAcc .r12 8 = true := by decide

theorem witness_CommandFrame :
    (∃ t, exec (.enca .g8 .r14 6) (quiet [] []) = .next t ∧ ∃ r, t.res = some r) ∧
      ∃ t, exec (.wr 0x1D 0x20 0x68) (quiet [] []) = .next t ∧ ∀ dev reg, Instr.wr 0x1D 0x20 0x68 ≠ .rd dev reg :=
  ⟨⟨_, rfl, _, rfl⟩, _, rfl, by simp⟩

theorem witness_AttemptCounter_accept :
    (quiet [] []).bsy = false ∧ ∃ t, exec (.rd 0x1D 0x0F) (quiet [] []) = .next t ∧ t.bsy = true := ⟨rfl, _, rfl, rfl⟩

theorem witness_AttemptCounter_closed :
    Inv (closedWith Config.stNoErr 0x4 2 []) ∧ (closedWith Config.stNoErr 0x4 2 []).bsy = true ∧
      (closedWith Config.stNoErr 0x4 2 []).ph = .closed ∧ NoMoveBefore (closedWith Config.stNoErr 0x4 2 []).env ∧
      ∃ t, step (closedWith Config.stNoErr 0x4 2 []) = .next t :=
  ⟨(closedWith_inv stNoErr_ne_stBusy []).2.1, rfl, rfl, (noMoveBefore_of_silent rfl), _, rfl⟩

theorem witness_AttemptCounter_open :
    Inv (started 0x4 2 []) ∧ (started 0x4 2 []).bsy = true ∧ (started 0x4 2 []).ph ≠ .closed ∧
      NoResetNext (started 0x4 2 []) ∧ ∃ t, step (started 0x4 2 []) = .next t :=
  ⟨(started_inv []).2, rfl, nofun, nofun, _, rfl⟩

/-- At `Closed`, a cell changes by itself first. -/
theorem witness_AttemptCounter_cell :
    ∃ s : State, Inv s ∧ s.bsy = true ∧ s.ph = .closed ∧ ¬ NoMoveBefore s.env ∧ NoResetNext s ∧ ∃ t, step s = .next t :=
  ⟨closedWith Config.stNoErr 0x4 2 [.cell 0x1D 0x0F 1], (closedWith_inv stNoErr_ne_stBusy _).2.1, rfl, rfl,
    fun h => Bool.noConfusion (h _ rfl), nofun, _, rfl⟩

theorem witness_AttemptCounter_quiet : Inv (quiet [] []) ∧ (quiet [] []).bsy = false := ⟨quiet_inv [] [], rfl⟩

/-! ## Witnesses: the attempt -/

theorem witness_AcquisitionStep (g : Bool) :
    (flight 0x3 1 [.grant g]).bsy = true ∧ (flight 0x3 1 [.grant g]).ph = .idle ∧
      (flight 0x3 1 [.grant g]).env.move = some (.grant g) := ⟨rfl, rfl, rfl⟩

theorem witness_SetUpSequence :
    (acquired 0x4 2 []).bsy = true ∧ (acquired 0x4 2 []).ph = .busAcquired ∧ (acquired 0x4 2 []).armed = none ∧
      (acquired 0x4 2 []).cbh = .none ∧ (acquired 0x4 2 []).nah = .none ∧ NoMoveBefore (acquired 0x4 2 []).env :=
  ⟨rfl, rfl, rfl, rfl, rfl, (noMoveBefore_of_silent rfl)⟩

theorem witness_BusyAnswerChangesNothing :
    (started 0x3 1 [.status Config.stBusy]).bsy = true ∧ (started 0x3 1 [.status Config.stBusy]).ph.inTransfer = true ∧
      (started 0x3 1 [.status Config.stBusy]).env.move = some (.status Config.stBusy) ∧ (started 0x3 1 []).env.move = none :=
  ⟨rfl, rfl, rfl, rfl⟩

theorem witness_ClosingSteps_close :
    (started 0x3 1 [.status Config.stNoErr]).bsy = true ∧ (started 0x3 1 [.status Config.stNoErr]).ph.inTransfer = true ∧
      (inData 0x4 2 [.status Config.stNoErr]).ph.inTransfer = true ∧
      (started 0x3 1 [.status Config.stNoErr]).env.move = some (.status Config.stNoErr) ∧ Config.stNoErr ≠ Config.stBusy :=
  ⟨rfl, rfl, rfl, rfl, stNoErr_ne_stBusy⟩

theorem witness_ClosingSteps_end :
    ∃ st, st ≠ Config.stNoErr ∧ Inv (closedWith st 0x4 2 []) ∧ (closedWith st 0x4 2 []).bsy = true ∧
      (closedWith st 0x4 2 []).ph = .closed ∧ NoMoveBefore (closedWith st 0x4 2 []).env ∧
      ∃ t, step (closedWith st 0x4 2 []) = .next t := by
  obtain ⟨st, h1, h2⟩ := exists_failure
  exact ⟨st, h2, (closedWith_inv h1 []).2.1, rfl, rfl, (noMoveBefore_of_silent rfl), _, rfl⟩

theorem witness_CompletionEvent :
    (started 0x3 1 [.complete]).bsy = true ∧ (started 0x3 1 [.complete]).ph.inTransfer = true ∧
      (started 0x3 1 [.complete]).env.move = some .complete ∧ (started 0x3 1 [.complete]).cbh = .wrStage ∧
      (started 0x4 2 [.complete]).cbh = .rdStage ∧ (inData 0x3 1 [.complete]).cbh = .none ∧
      (inData 0x3 1 [.complete]).ph.inTransfer = true ∧ Inv (started 0x3 1 [.complete]) :=
  ⟨rfl, rfl, rfl, rfl, rfl, rfl, rfl, (started_inv _).1⟩

theorem witness_AddressNackEvent :
    Inv (started 0x3 1 [.addrNack]) ∧ (started 0x3 1 [.addrNack]).bsy = true ∧
      (started 0x3 1 [.addrNack]).ph.inTransfer = true ∧ (started 0x3 1 [.addrNack]).env.move = some .addrNack :=
  ⟨(started_inv _).1, rfl, rfl, rfl⟩

theorem witness_DepositIsTheOnlyBufferWrite_deposit :
    NoResetNext (inData 0x4 2 [.deposit 0x40]) ∧ (inData 0x4 2 [.deposit 0x40]).bsy = true ∧
      (inData 0x4 2 [.deposit 0x40]).ph = .dataPhaseReceived ∧ (inData 0x4 2 [.deposit 0x40]).deposited = false ∧
      (inData 0x4 2 [.deposit 0x40]).env.move = some (.deposit 0x40) ∧
      ∃ t, step (inData 0x4 2 [.deposit 0x40]) = .next t ∧ t.dbuf ≠ (inData 0x4 2 [.deposit 0x40]).dbuf :=
  ⟨nofun, rfl, rfl, rfl, rfl, _, rfl, by decide⟩

theorem witness_DepositIsTheOnlyBufferWrite_draw :
    ∃ s t : State, s.bsy = true ∧ NoResetNext s ∧ step s = .next t ∧ t.dbuf ≠ s.dbuf ∧ s.ph = .closed := by
  obtain ⟨st, h1, h2⟩ := exists_failure
  let s : State := { closedWith st 0x4#4 2 [] with dbuf := Config.any8 0 + 1 }
  have hs : step s = .next (finish s) := step_finish rfl rfl (noMoveBefore_of_silent rfl)
  refine ⟨s, finish s, rfl, nofun, hs, ?_, rfl⟩
  have hf : finish s = (attemptEnds s).drawDbuf := by
    simp only [finish, show s.isRead = true from rfl, if_true, finishRead, show s.lst = st from rfl, if_neg h2]
    rfl
  rw [hf]
  show Config.any8 0 ≠ Config.any8 0 + 1
  generalize Config.any8 0 = b
  revert b
  decide

theorem witness_PhaseTransitionRelation_open :
    Inv (flight 0x3 1 [.grant true]) ∧ (flight 0x3 1 [.grant true]).bsy = true ∧
      NoResetNext (flight 0x3 1 [.grant true]) ∧
      ∃ t, step (flight 0x3 1 [.grant true]) = .next t ∧ t.ph ≠ (flight 0x3 1 [.grant true]).ph :=
  ⟨(flight_inv _).1, rfl, nofun, _, rfl, by decide⟩

theorem witness_PhaseTransitionRelation_start :
    ∃ s t : State, Inv s ∧ s.bsy = true ∧ NoResetNext s ∧ step s = .next t ∧ t.ph ≠ s.ph ∧ s.ph = .busAcquired := by
  refine ⟨{ acquired 0x3#4 1 [] with armed := some .abuf, cbh := .wrStage, nah := .retry }, _, ?_, rfl,
    nofun, rfl, by decide, rfl⟩
  constructor <;> first
    | exact Memory.wf_nil
    | simp [acquired, flight, State.reset, Quiescent, Phase.inTransfer, writeOpcode, State.isRead]

theorem witness_PhaseTransitionRelation_complete :
    Inv (started 0x4 2 [.complete]) ∧ NoResetNext (started 0x4 2 [.complete]) ∧
      (∃ t, step (started 0x4 2 [.complete]) = .next t ∧ t.ph = .dataPhaseReceived) ∧
      ∃ t, step (started 0x3 1 [.complete]) = .next t ∧ t.ph = .dataPhaseSent :=
  ⟨(started_inv _).2, nofun, ⟨_, rfl, rfl⟩, _, rfl, rfl⟩

theorem witness_PhaseTransitionRelation_close :
    Inv (started 0x3 1 [.status Config.stNoErr]) ∧ NoResetNext (started 0x3 1 [.status Config.stNoErr]) ∧
      ∃ t, step (started 0x3 1 [.status Config.stNoErr]) = .next t ∧ t.ph = .closed :=
  ⟨(started_inv _).1, nofun, _, step_close rfl rfl rfl stNoErr_ne_stBusy, rfl⟩

theorem witness_PhaseTransitionRelation_end :
    Inv (closedWith Config.stNoErr 0x3 1 []) ∧ NoResetNext (closedWith Config.stNoErr 0x3 1 []) ∧
      ∃ t, step (closedWith Config.stNoErr 0x3 1 []) = .next t ∧ t.ph = .idle :=
  ⟨(closedWith_inv stNoErr_ne_stBusy []).1, nofun, _, rfl, rfl⟩

theorem witness_AddressHeldToTheEnd :
    Inv (inData 0x3 1 [.store]) ∧ (inData 0x3 1 [.store]).bsy = true ∧ NoResetNext (inData 0x3 1 [.store]) ∧
      (∃ t, step (inData 0x3 1 [.store]) = .next t) ∧ (inData 0x3 1 [.store]).isRead = false ∧
      (quiet [none] []).cmdWord = none :=
  ⟨(inData_inv _).1, rfl, nofun, ⟨_, rfl⟩, rfl, rfl⟩

theorem witness_LastStatusIsNeverBusy_write :
    NoResetNext (started 0x3 1 [.status Config.stNoErr]) ∧
      ∃ t, step (started 0x3 1 [.status Config.stNoErr]) = .next t ∧ t.lst ≠ (started 0x3 1 [.status Config.stNoErr]).lst :=
  ⟨nofun, _, step_close rfl rfl rfl stNoErr_ne_stBusy, stNoErr_ne_stBusy⟩

theorem witness_LastStatusIsNeverBusy_result :
    Inv (closedWith Config.stNoErr 0x3 1 []) ∧ (closedWith Config.stNoErr 0x3 1 []).bsy = true ∧
      (closedWith Config.stNoErr 0x3 1 []).isRead = false ∧
      ∃ t r, step (closedWith Config.stNoErr 0x3 1 []) = .next t ∧ t.res = some r :=
  ⟨(closedWith_inv stNoErr_ne_stBusy []).1, rfl, rfl, _, _, rfl, rfl⟩

theorem witness_BusFreeBetweenAttempts :
    ∃ s : State, s.bsy = true ∧ s.isRead = true ∧ s.ph = .closed ∧ s.att = 2 ∧ s.lst ≠ Config.stNoErr ∧
      NoMoveBefore s.env ∧ s.env.move = some (.grant true) := by
  obtain ⟨st, -, h2⟩ := exists_failure
  exact ⟨closedWith st 0x4 2 [.grant true], rfl, rfl, rfl, rfl, h2, noMoveBefore_of_move rfl rfl, rfl⟩

/-! ## Witnesses: ends of a transaction -/

theorem witness_WriteNeverRetries :
    ∃ st, st ≠ Config.stNoErr ∧ Inv (closedWith st 0x3 1 []) ∧ (closedWith st 0x3 1 []).bsy = true ∧
      (closedWith st 0x3 1 []).isRead = false ∧ (closedWith st 0x3 1 []).ph = .closed ∧
      NoMoveBefore (closedWith st 0x3 1 []).env := by
  obtain ⟨st, h1, h2⟩ := exists_failure
  exact ⟨st, h2, (closedWith_inv h1 []).1, rfl, rfl, rfl, (noMoveBefore_of_silent rfl)⟩

theorem witness_ReadRetryPolicy_clean :
    Inv (closedWith Config.stNoErr 0x4 1 []) ∧ (closedWith Config.stNoErr 0x4 1 []).isRead = true ∧
      (closedWith Config.stNoErr 0x4 1 []).ph = .closed ∧ NoMoveBefore (closedWith Config.stNoErr 0x4 1 []).env ∧
      (closedWith Config.stNoErr 0x4 1 []).lst = Config.stNoErr :=
  ⟨(closedWith_inv stNoErr_ne_stBusy []).2.2, rfl, rfl, (noMoveBefore_of_silent rfl), rfl⟩

theorem witness_ReadRetryPolicy_failed :
    ∃ st, st ≠ Config.stNoErr ∧ Inv (closedWith st 0x4 2 []) ∧ (closedWith st 0x4 2 []).att = 2 ∧
      Inv (closedWith st 0x4 1 []) ∧ (closedWith st 0x4 1 []).att = 1 := by
  obtain ⟨st, h1, h2⟩ := exists_failure
  exact ⟨st, h2, (closedWith_inv h1 []).2.1, rfl, (closedWith_inv h1 []).2.2, rfl⟩

theorem witness_ExhaustedReadByteIsADraw :
    ∃ s t : State, Inv s ∧ s.bsy = true ∧ s.isRead = true ∧ s.ph = .closed ∧ s.att = 1 ∧ s.lst ≠ Config.stNoErr ∧
      NoMoveBefore s.env ∧ step s = .next t := by
  obtain ⟨st, h1, h2⟩ := exists_failure
  exact ⟨closedWith st 0x4 1 [], _, (closedWith_inv h1 []).2.2, rfl, rfl, rfl, rfl, h2, (noMoveBefore_of_silent rfl), rfl⟩

/-- The moves of a read whose first attempt deposits a byte and fails and whose second attempt goes on with `second`. -/
def readTwice (st : Status) (second : List EnvMove) : List EnvMove :=
  [.grant false, .grant true, .complete, .deposit 0xAA, .status st] ++
    ([.cell 0x1D 0x0F 0x44] ++ .grant true :: (second ++ [.status Config.stNoErr]))

theorem witness_SecondAttemptsByteIsReturned (second : List EnvMove) :
    ∃ (s u : State) (st : Status), Inv s ∧ s.bsy = false ∧ st ≠ Config.stNoErr ∧
      AttemptScript st [.grant false, .grant true, .complete, .deposit 0xAA, .status st] ∧
      (∀ m ∈ [EnvMove.cell 0x1D 0x0F 0x44], m.keepsWaiting = true) ∧ NoMoveBefore (.only []) ∧
      exec (.rd 0x1D 0x0F) s = .next u ∧ Environment.Begins (readTwice st second) u.env (.only []) := by
  obtain ⟨st, h1, h2⟩ := exists_failure
  exact ⟨quiet [] (readTwice st second), _, st, quiet_inv _ _, rfl, h2,
    ⟨h1, [.grant false], [.complete, .deposit 0xAA], rfl, by decide, by simp [EnvMove.keepsTransferring]⟩, by decide,
    noMoveBefore_of_silent rfl, rfl, Environment.begins_only _⟩

/-- With a deposit of 0x43 after an address-NACK, COMPLETE and a busy poll. -/
theorem witness_SecondAttemptsByteIsReturned_deposit :
    (∀ m ∈ [EnvMove.addrNack, .complete, .status Config.stBusy, .deposit 0x43, .complete], m.keepsTransferring) ∧
      [EnvMove.addrNack, .complete, .status Config.stBusy, .deposit 0x43, .complete] =
        [.addrNack] ++ .complete :: ([.status Config.stBusy] ++ .deposit 0x43 :: [.complete]) ∧
      ∀ m ∈ [EnvMove.addrNack] ++ [EnvMove.status Config.stBusy], m.isDeposit = false :=
  ⟨by simp [EnvMove.keepsTransferring], rfl, by simp [EnvMove.isDeposit]⟩

/-- Without a deposit. -/
theorem witness_SecondAttemptsByteIsReturned_draw :
    (∀ m ∈ [EnvMove.addrNack, .complete, .status Config.stBusy], m.keepsTransferring) ∧
      ∀ m ∈ [EnvMove.addrNack, .complete, .status Config.stBusy], m.isDeposit = false :=
  ⟨by simp [EnvMove.keepsTransferring], by simp [EnvMove.isDeposit]⟩

/-! ## Witnesses: whole transactions -/

theorem witness_WriteCommandsComplete :
    ∃ (s : State) (st : Status) (script : List EnvMove), st ≠ Config.stNoErr ∧ Inv s ∧ s.bsy = false ∧
      Environment.Begins script s.env (.only []) ∧ AttemptScript st script ∧ NoMoveBefore (.only []) ∧ validAcc .r12 8 = true := by
  obtain ⟨st, h1, h2⟩ := exists_failure
  exact ⟨quiet [] _, st, _, h2, quiet_inv _ _, rfl, Environment.begins_only _, attemptScript_plain h1, (noMoveBefore_of_silent rfl),
    by decide⟩

theorem witness_ReadCompletes_clean :
    ∃ (s : State) (script : List EnvMove), Inv s ∧ s.bsy = false ∧ AttemptScript Config.stNoErr script ∧
      NoMoveBefore (.only []) ∧ Environment.Begins script s.env (.only []) :=
  ⟨quiet [] _, _, quiet_inv _ _, rfl, attemptScript_plain stNoErr_ne_stBusy, (noMoveBefore_of_silent rfl), Environment.begins_only _⟩

theorem witness_ReadCompletes_retry :
    ∃ (s : State) (st : Status) (script script2 : List EnvMove), Inv s ∧ s.bsy = false ∧ st ≠ Config.stNoErr ∧
      AttemptScript st script ∧ AttemptScript Config.stNoErr script2 ∧ Environment.Begins (script ++ script2) s.env (.only []) ∧
      NoMoveBefore (.only []) := by
  obtain ⟨st, h1, h2⟩ := exists_failure
  exact ⟨quiet [] _, st, _, _, quiet_inv _ _, rfl, h2, attemptScript_plain h1, attemptScript_plain stNoErr_ne_stBusy,
    Environment.begins_only _, (noMoveBefore_of_silent rfl)⟩

theorem witness_PortCallsOfOneAttempt :
    ∃ (s : State) (script : List EnvMove), Inv s ∧ s.bsy = true ∧ s.ph = .idle ∧ Environment.Begins script s.env (.only []) ∧
      AttemptScript Config.stNoErr script :=
  ⟨flight 0x4 2 _, _, (flight_inv _).2, rfl, rfl, Environment.begins_only _, attemptScript_plain stNoErr_ne_stBusy⟩

theorem witness_ConfigureIsAWrite :
    validAcc .r14 6 = true ∧ (6 : Odr).toNat ≤ 10 ∧ Inv (quiet [] []) ∧ (quiet [] []).bsy = false :=
  ⟨by decide, by decide, quiet_inv _ _, rfl⟩

/-! ## Witnesses: hangs -/

/-- An environment that never grants: silent, or refusing for ever. -/
theorem witness_HangAtAcquisition :
    (flight 0x3 1 []).bsy = true ∧ (flight 0x3 1 []).ph = .idle ∧
      (flight 0x3 1 []).env.Always (fun m => m.keepsWaiting = true) ∧
      (flight 0x3 1 []).env.Always (fun m => m = .grant false) ∧
      Environment.Always (fun m => m.keepsWaiting = true) ⟨[], .cycle (.grant false) []⟩ :=
  ⟨rfl, rfl, Environment.always_silent _, Environment.always_silent _, Environment.always_repeated rfl⟩

/-- An environment that never comes to a status: silent, or with address-NACKs for ever (93_implementation_defined U11). -/
theorem witness_HangAtCompletion :
    (inData 0x4 2 []).bsy = true ∧ (inData 0x4 2 []).ph.inTransfer = true ∧
      (inData 0x4 2 []).env.Always EnvMove.keepsTransferring ∧
      (inData 0x4 2 []).env.Always (fun m => m = .status Config.stBusy) ∧
      Environment.Always EnvMove.keepsTransferring ⟨[], .cycle .addrNack []⟩ :=
  ⟨rfl, rfl, Environment.always_silent _, Environment.always_silent _, Environment.always_repeated trivial⟩

/-! ## Witnesses: device register space -/

theorem witness_MemoryFrame :
    NoResetNext (inData 0x3 1 [.store]) ∧ (∃ t, step (inData 0x3 1 [.store]) = .next t) ∧
      NoResetNext (quiet [] [.cell 0xFF 0xFF 1]) ∧ (∃ t, step (quiet [] [.cell 0xFF 0xFF 1]) = .next t) ∧
      NoResetNext (quiet [some 0x301D2068] []) ∧ ∃ t, step (quiet [some 0x301D2068] []) = .next t :=
  ⟨nofun, ⟨_, rfl⟩, nofun, ⟨_, rfl⟩, nofun, _, rfl⟩

theorem witness_FaithfulWriteOverwritesOneCell :
    ∃ s u : State, Inv s ∧ s.bsy = false ∧ Config.stNoErr ≠ Config.stBusy ∧ NoMoveBefore (.only []) ∧
      (∀ m ∈ [EnvMove.grant false], m.keepsWaiting = true ∧ m.touchesCells = false) ∧
      (∀ m ∈ [EnvMove.addrNack] ++ [EnvMove.complete], m.keepsTransferring ∧ m.touchesCells = false) ∧
      Environment.Begins ([.grant false] ++ .grant true :: ([.addrNack] ++ .complete :: .store ::
        ([.complete] ++ [.status Config.stNoErr]))) s.env (.only []) ∧
      exec (.wr 0x1D 0x20 0x68) s = .next u :=
  ⟨quiet [] _, _, quiet_inv _ _, rfl, stNoErr_ne_stBusy, (noMoveBefore_of_silent rfl), by decide,
    List.forall_mem_cons.mpr ⟨⟨trivial, rfl⟩, List.forall_mem_cons.mpr ⟨⟨trivial, rfl⟩, by simp⟩⟩,
    Environment.begins_only _, rfl⟩

theorem witness_FailedWriteMayOrMayNotLand :
    ∃ (s : State) (st : Status), Inv s ∧ s.bsy = false ∧ st ≠ Config.stBusy ∧ st ≠ Config.stNoErr := by
  obtain ⟨st, h1, h2⟩ := exists_failure
  exact ⟨quiet [] [], st, quiet_inv _ _, rfl, h1, h2⟩

/-- After reset, with one cell known. -/
def withCell (a : Nat) (b : Byte) (env : List EnvMove) : State := { State.reset with mem := [(a, b)], env := .only env }

theorem withCell_inv (a : Nat) (b : Byte) (env : List EnvMove) (h : a < 65536) : Inv (withCell a b env) :=
  Quiescent.inv ⟨rfl, rfl, rfl, rfl, rfl⟩ (show Memory.wf [(a, b)] from ⟨by simp, by simpa using h⟩) rfl

theorem witness_FaithfulReadReturnsCellContent :
    ∃ s u : State, Inv s ∧ s.bsy = false ∧ NoMoveBefore (.only []) ∧
      s.mem.read (cellAddr 0x1D 0x0F) = some 0x43 ∧ exec (.rd 0x1D 0x0F) s = .next u ∧
      Environment.Begins (List.replicate 0 (.grant false) ++ .grant true :: .complete :: .deposit 0x43 ::
        (List.replicate 0 (.status Config.stBusy) ++ [.status Config.stNoErr])) u.env (.only []) :=
  ⟨withCell 7439 0x43 [.grant true, .complete, .deposit 0x43, .status Config.stNoErr], _,
    withCell_inv _ _ _ (by decide), rfl, (noMoveBefore_of_silent rfl), show Memory.read [(7439, 0x43)] _ = _ by decide, rfl,
    Environment.begins_only _⟩

/-! ## Witnesses: reset and the whole machine -/

theorem witness_ResetInput :
    (quiet [] [.reset]).env.move = some .reset ∧ (quiet [] [.reset]).cmdWord = none ∧ (quiet [] [.reset]).bsy = false ∧
      (inData 0x3 1 [.reset]).env.move = some .reset ∧ (inData 0x3 1 [.reset]).bsy = true := ⟨rfl, rfl, rfl, rfl, rfl⟩

theorem witness_UnspecifiedRegistersAreNeverRead :
    Inv (quiet [some 0x401D0F00] []) ∧ Quiescent (quiet [some 0x401D0F00] []) ∧
      SameButUnspecified (quiet [some 0x401D0F00] [])
        { quiet [some 0x401D0F00] [] with dev := 1, abuf := 2, dbuf := 3, lst := 4, opc := 5 } :=
  ⟨quiet_inv _ _, quiet_quiescent _ _, rfl⟩

theorem witness_AddressesAreOpaque :
    SameButAddress (flight 0x3 1 [.grant true]) { flight 0x3 1 [.grant true] with dev := 0x1E, abuf := 0x60 } ∧
      ∃ t, step (flight 0x3 1 [.grant true]) = .next t := ⟨rfl, _, rfl⟩

theorem witness_EveryStepKeepsTheInvariant :
    Inv (started 0x4 2 [.complete]) ∧ ∃ t, step (started 0x4 2 [.complete]) = .next t := ⟨(started_inv _).2, _, rfl⟩

theorem witness_EveryResultLeavesTheBlockQuiescent :
    Inv (closedWith Config.stNoErr 0x3 1 []) ∧
      ∃ t, step (closedWith Config.stNoErr 0x3 1 []) = .next t ∧ t.resValid = true :=
  ⟨(closedWith_inv stNoErr_ne_stBusy []).1, _, rfl, rfl⟩

theorem witness_PhysicalValueIsRoundedTwice : exactHalfAway.IsExact ∧ exactHalfAway.RoundsToNearest := by
  refine ⟨fun _ => rfl, fun x => ?_⟩
  simp only [exactHalfAway]
  rw [abs_le]
  split
  · have := Int.floor_le (x + 1 / 2)
    have := Int.lt_floor_add_one (x + 1 / 2)
    constructor <;> linarith
  · have := Int.le_ceil (x - 1 / 2)
    have := Int.ceil_lt_add_one (x - 1 / 2)
    constructor <;> linarith

theorem witness_SignExtensionIsTwosComplement : 8 ≤ 8 ∧ 8 ≤ 32 ∧ 16 ≤ 16 ∧ 16 ≤ 32 := by decide

end Sys2Proof.Tests
end

/-! PROOF. `LST` and the result port over one step (10_state R29): only the closing `T.close` writes `LST`, and with a
command in flight only the step Finish answers. -/

namespace Sys2Proof.Machine

/-! ## What the parts of an attempt do to `LST` and to the result port -/

@[simp] theorem acquire_lst (s : State) : (acquire s).lst = s.lst := by
  rcases acquire_cases s with h | ⟨-, h⟩ <;> rw [h] <;> rfl

@[simp] theorem acquire_res (s : State) : (acquire s).res = none := by
  rcases acquire_cases s with h | ⟨-, h⟩ <;> rw [h] <;> rfl

@[simp] theorem setUp_lst (s : State) : (setUp s).lst = s.lst := by
  rcases setUp_cases s with ⟨-, h⟩ | ⟨-, -, h⟩ | ⟨-, -, -, h⟩ | ⟨-, -, -, h⟩ <;> rw [h] <;> rfl

@[simp] theorem setUp_res (s : State) : (setUp s).res = none := by
  rcases setUp_cases s with ⟨-, h⟩ | ⟨-, -, h⟩ | ⟨-, -, -, h⟩ | ⟨-, -, -, h⟩ <;> rw [h] <;> rfl

/-- R137: a transfer writes `LST` only in the poll that ends it, with the status on the port. -/
theorem transfer_lst (s : State) :
    (transfer s).lst = s.lst ∨
      (transfer s).lst ≠ Config.stBusy ∧ (transfer s).port = [.tClose (transfer s).lst] := by
  rcases transfer_cases s with ⟨_, h⟩ | ⟨-, -, h⟩ | ⟨-, -, h⟩ | ⟨_, -, -, -, h⟩ | ⟨-, -, h⟩ | ⟨_, -, hst, h⟩ <;> rw [h]
  case inr.inr.inr.inr.inr => exact .inr ⟨hst, rfl⟩
  all_goals exact .inl rfl

@[simp] theorem transfer_res (s : State) : (transfer s).res = none := by
  rcases transfer_cases s with ⟨_, h⟩ | ⟨-, -, h⟩ | ⟨-, -, h⟩ | ⟨_, -, -, -, h⟩ | ⟨-, -, h⟩ | ⟨_, -, -, h⟩ <;> rw [h] <;> rfl

@[simp] theorem finish_lst (s : State) : (finish s).lst = s.lst := by
  rcases finish_cases s with ⟨-, h⟩ | ⟨-, -, h⟩ | ⟨-, -, -, h⟩ | ⟨-, -, -, h⟩ <;> rw [h] <;> rfl

/-- R151: the end of a write answers `LST`. -/
theorem finish_res_of_write {s : State} (hr : s.isRead = false) : (finish s).res = some (.done s.lst 0) := by
  simp [finish, finishWrite, hr]

/-! ## What a whole step does to them -/

/-- With a command in flight and no reset, `LST` is kept or the transfer's closing poll writes it. -/
theorem busyStep_lst {s : State} (hn : NoResetNext s) :
    (busyStep s).lst = s.lst ∨
      (busyStep s).lst ≠ Config.stBusy ∧ s.ph.inTransfer = true ∧ (busyStep s).port = [.tClose (busyStep s).lst] := by
  rcases busyStep_cases s with ⟨_, _, _, -, h⟩ | ⟨he, -⟩ | ⟨-, h⟩
  · exact .inl (by rw [h]; rfl)
  · exact absurd he hn
  · rw [h]
    rcases attemptStep_cases s with ⟨-, h⟩ | ⟨-, h⟩ | ⟨hp, h⟩ | ⟨-, h⟩ <;> rw [h]
    · exact .inl (acquire_lst s)
    · exact .inl (setUp_lst s)
    · exact (transfer_lst s).imp_right fun ⟨hst, hport⟩ => ⟨hst, hp, hport⟩
    · exact .inl (finish_lst s)

/-- Without a reset, a waiting block keeps `LST`. -/
theorem idleStep_lst {s : State} (hn : NoResetNext s) : (idleStep s).lst = s.lst := by
  rcases idleStep_cases s with ⟨_, _, _, -, h⟩ | ⟨he, -⟩ | ⟨-, h⟩
  · rw [h]; rfl
  · exact absurd he hn
  · rw [h]; rfl

/-- R86, R157: with a command in flight, a step that answers is the step Finish. -/
theorem busyStep_eq_finish_of_res {s : State} {r : Result} (h : (busyStep s).res = some r) :
    s.ph = .closed ∧ busyStep s = finish s := by
  rcases busyStep_cases s with ⟨_, _, _, -, hc⟩ | ⟨-, hc⟩ | ⟨-, hc⟩ <;> rw [hc] at h ⊢
  · cases h
  · cases h
  · rcases attemptStep_cases s with ⟨-, ha⟩ | ⟨-, ha⟩ | ⟨-, ha⟩ | ⟨hp, ha⟩ <;> rw [ha] at h ⊢
    · simp at h
    · simp at h
    · simp at h
    · exact ⟨hp, rfl⟩

/-- Without a reset, a step that changes `LST` is the closing poll of a transfer. -/
theorem step_lst {s t : State} (hn : NoResetNext s) (h : step s = .next t) :
    t.lst = s.lst ∨ t.lst ≠ Config.stBusy ∧ s.ph.inTransfer = true ∧ t.port = [.tClose t.lst] := by
  rcases step_cases s with ⟨-, hs⟩ | ⟨-, -, hs⟩ | ⟨-, -, _, hs⟩ | ⟨-, -, _, _, _, _, -, hs⟩ | ⟨-, -, _, _, hs⟩ <;>
    rw [hs] at h <;> cases h
  case inl => exact busyStep_lst hn
  case inr.inl => exact .inl (idleStep_lst (s := s.popHost) hn)
  all_goals exact .inl rfl

/-- Settles O33: the first part is the inversion of a step that changes `LST`; a write's result is `LST` in `Closed`, where
the invariant says that it is not busy. -/
theorem lastStatusIsNeverBusy : Obligations.LastStatusIsNeverBusy := by
  refine ⟨fun s t hn hs hne => (step_lst hn hs).resolve_left hne, fun s t r hi hb hw hs hr => ?_⟩
  rw [step_busy hb] at hs
  cases hs
  obtain ⟨hclosed, hfin⟩ := busyStep_eq_finish_of_res hr
  rw [hfin, finish_res_of_write hw] at hr
  cases hr
  rw [hfin, finish_lst]
  exact ⟨rfl, hi.closedStatus hclosed⟩

end Sys2Proof.Machine

/-! PROOF. The command port over one step (30_encoding R80): a ready block takes the word at its head, and every part
of an attempt commutes with a change of what the host presents. -/

namespace Sys2Proof.Machine

/-! ## A change of what the host presents -/

/-- `s` with `h` on its command port. -/
def State.withHost (h : List (Option Word32)) (s : State) : State := { s with host := h }

section HostPort

variable (h : List (Option Word32)) (s : State)

@[simp] theorem State.withHost_host : (s.withHost h).host = h := rfl
@[simp] theorem State.withHost_ph : (s.withHost h).ph = s.ph := rfl
@[simp] theorem State.withHost_cbh : (s.withHost h).cbh = s.cbh := rfl
@[simp] theorem State.withHost_bsy : (s.withHost h).bsy = s.bsy := rfl
@[simp] theorem State.withHost_env : (s.withHost h).env = s.env := rfl
@[simp] theorem State.withHost_pop : (s.withHost h).pop = s.pop.withHost h := rfl
@[simp] theorem State.withHost_self : s.withHost s.host = s := rfl

/-! ## Every part of an attempt commutes with it

Where the part is an `if`, its condition does not look at the port, so `State.withHost h` moves into the branches. -/

theorem acquire_withHost : acquire (s.withHost h) = (acquire s).withHost h := rfl

theorem setUp_withHost : setUp (s.withHost h) = (setUp s).withHost h := by
  unfold setUp
  simp only [apply_ite (State.withHost h)]
  rfl

theorem onComplete_withHost : onComplete (s.withHost h) = (onComplete s).withHost h := by
  unfold onComplete
  rw [State.withHost_cbh]
  cases s.cbh <;> rfl

theorem onAddrNack_withHost : onAddrNack (s.withHost h) = (onAddrNack s).withHost h := by
  unfold onAddrNack
  simp only [apply_ite (State.withHost h)]
  rfl

theorem onDeposit_withHost (b : Byte) : onDeposit b (s.withHost h) = (onDeposit b s).withHost h := by
  unfold onDeposit
  simp only [apply_ite (State.withHost h)]
  rfl

theorem onStore_withHost : onStore (s.withHost h) = (onStore s).withHost h := by
  unfold onStore
  simp only [apply_ite (State.withHost h)]
  rfl

theorem closeCall_withHost (st : Status) : closeCall st (s.withHost h) = (closeCall st s).withHost h := by
  unfold closeCall
  simp only [apply_ite (State.withHost h)]
  rfl

theorem transfer_withHost : transfer (s.withHost h) = (transfer s).withHost h := by
  unfold transfer
  rw [State.withHost_env, State.withHost_pop]
  split
  · exact onComplete_withHost h s.pop
  · exact onAddrNack_withHost h s.pop
  · exact onDeposit_withHost h s.pop _
  · exact onStore_withHost h s.pop
  · exact closeCall_withHost h s.pop _
  · rfl

theorem finishRead_withHost : finishRead (s.withHost h) = (finishRead s).withHost h := by
  unfold finishRead
  simp only [apply_ite (State.withHost h)]
  rfl

theorem finish_withHost : finish (s.withHost h) = (finish s).withHost h := by
  unfold finish
  rw [finishRead_withHost, apply_ite (State.withHost h)]
  rfl

theorem attemptStep_withHost : attemptStep (s.withHost h) = (attemptStep s).withHost h := by
  cases hp : s.ph <;>
    simp only [attemptStep, State.withHost_ph, hp, acquire_withHost, setUp_withHost, transfer_withHost, finish_withHost]

/-- R80: a step in flight does what it does whatever the host presents. -/
theorem busyStep_withHost : busyStep (s.withHost h) = (busyStep s).withHost h := by
  unfold busyStep
  rw [State.withHost_env, State.withHost_pop]
  cases s.env.move with
  | none => exact attemptStep_withHost h s
  | some m =>
    cases m with
    | cell | reset => rfl
    | _ => exact attemptStep_withHost h s

/-- R80: a step in flight takes nothing from the command port. -/
@[simp] theorem busyStep_host : (busyStep s).host = s.host :=
  calc (busyStep s).host
    _ = (busyStep (s.withHost s.host)).host := by rw [State.withHost_self]
    _ = s.host := by rw [busyStep_withHost, State.withHost_host]

end HostPort

/-! ## The two values of `cmd_ready` -/

theorem cmdReady_iff (s : State) : s.cmdReady = true ↔ s.bsy = false := by simp [State.cmdReady]

theorem cmdReady_false_iff (s : State) : s.cmdReady = false ↔ s.bsy = true := by simp [State.cmdReady]

theorem popHost_eq_withHost {s : State} {w : Option Word32} {rest : List (Option Word32)} (hh : s.host = w :: rest) :
    s.popHost = s.withHost rest := by simp [State.popHost, State.withHost, hh]

/-- R80: the step of a ready block with a word on the port. -/
theorem step_presented {s : State} {w : Word32} {rest : List (Option Word32)} (hr : s.cmdReady = true)
    (hh : s.host = some w :: rest) :
    (∀ i, decode w = .ok i → step s = exec i (s.withHost rest)) ∧
      ∀ e, decode w = .error e → step s = .next (raiseError .illegalCommand (s.withHost rest)) := by
  have hb := (cmdReady_iff s).mp hr
  have hw := cmdWord_cons (some w) s rest hh
  rw [← popHost_eq_withHost hh]
  exact ⟨fun _ => step_accepts hb hw, fun _ => step_refuses hb hw⟩

/-- R80: the step of a block that is not ready keeps the port and is the same for every other port. -/
theorem step_ignores_port {s t : State} (hr : s.cmdReady = false) (hs : step s = .next t)
    (h : List (Option Word32)) : t.host = s.host ∧ step (s.withHost h) = .next (t.withHost h) := by
  have hb := (cmdReady_false_iff s).mp hr
  rw [step_busy hb] at hs
  cases hs
  exact ⟨busyStep_host s, by rw [step_busy ((State.withHost_bsy h s).trans hb), busyStep_withHost]⟩

/-- Settles O9: a ready block's step is the acceptance or the refusal of the word at the head of the port; otherwise it
is a step in flight, which commutes with a change of the port. -/
theorem commandPortHandshake : Obligations.CommandPortHandshake := fun _ =>
  ⟨rfl, fun hr _ _ hh => step_presented hr hh, fun hr h _ hs => step_ignores_port hr hs h⟩

end Sys2Proof.Machine

/-! PROOF. The control bytes as their fields side by side (41_encoder R111, R116), and what ENCA and ENCM answer (R113,
R118). -/

namespace Sys2Proof.Machine

/-! ## The layouts -/

/-- R111: the fields of the byte do not overlap, whatever their values. -/
theorem encAcc_eq_append (scale : Scale) (res : Resolution) (odr : Odr) :
    encAcc scale res odr = odrCode res odr ++ scale.ordinal ++ hfFlag res ++ 0#1 := by
  unfold encAcc
  generalize odrCode res odr = code, scale.ordinal = sc, hfFlag res = hf
  revert code sc hf
  decide

/-- R116: temperature compensation set, the three bits below it clear, the rate, the mode. -/
theorem encMag_eq_append (mode : MagMode) (modr : MagOdr) :
    encMag mode modr = 1#1 ++ 0#3 ++ modr ++ mode.ordinal := by
  unfold encMag
  generalize mode.ordinal = m
  revert m modr
  decide

/-! ## The bytes as sums -/

theorem encAcc_toNat (scale : Scale) (res : Resolution) (odr : Odr) :
    (encAcc scale res odr).toNat =
      16 * (odrCode res odr).toNat + 4 * scale.ordinal.toNat + 2 * (hfFlag res).toNat := by
  simp only [encAcc_eq_append, toNat_append_add, BitVec.toNat_ofNat]
  omega

theorem encMag_toNat (mode : MagMode) (modr : MagOdr) :
    (encMag mode modr).toNat = 128 + 4 * modr.toNat + mode.ordinal.toNat := by
  simp only [encMag_eq_append, toNat_append_add, BitVec.toNat_ofNat]
  omega

/-! ## The ODR code of a valid pair (R112, R115) -/

theorem validAcc_r10_iff (odr : Odr) : validAcc .r10 odr = true ↔ odr.toNat ≤ 7 := by
  simp [validAcc, Config.i800, BitVec.le_def]

theorem validAcc_r12_iff (odr : Odr) : validAcc .r12 odr = true ↔ 8 ≤ odr.toNat := by
  simp [validAcc, Config.i1600, Config.i800, BitVec.le_def]

/-- R115: on a 3-bit rate, setting bit 3 adds 8. -/
theorem odrCode_r10_toNat {odr : Odr} (h : validAcc .r10 odr = true) : (odrCode .r10 odr).toNat = 8 + odr.toNat := by
  have hlt : odr.toNat < 2 ^ 3 := Nat.lt_succ_of_le ((validAcc_r10_iff odr).mp h)
  exact (Nat.two_pow_add_eq_or_of_lt hlt 1).symm

/-- R115: the subtraction does not borrow. -/
theorem odrCode_r12_toNat {odr : Odr} (h : validAcc .r12 odr = true) : (odrCode .r12 odr).toNat = odr.toNat - 3 := by
  have hle : 8 ≤ odr.toNat := (validAcc_r12_iff odr).mp h
  exact BitVec.toNat_sub_of_le (BitVec.le_def.mpr (Nat.le_trans (by decide) hle))

/-! ## What the two commands answer -/

theorem exec_enca_valid (scale : Scale) {res : Resolution} {odr : Odr} (s : State) (hm : odr.toNat ≤ 10)
    (hv : validAcc res odr = true) :
    exec (.enca scale res odr) s = .next (s.emit (.done 0 (encAcc scale res odr))) := by
  simp [exec, execEnca, (odrMember_iff odr).mpr hm, hv]

theorem exec_encm (mode : MagMode) (modr : MagOdr) (s : State) :
    exec (.encm mode modr) s = .next (s.emit (.done 0 (encMag mode modr))) := rfl

/-- Settles O14: the byte is the sum of its fields, and the ODR code of a valid pair is the document's number. -/
theorem encaAnswersControlByte : Obligations.EncaAnswersControlByte := by
  intro s scale res odr hm hv
  refine ⟨encAcc scale res odr, exec_enca_valid scale s hm hv, ?_, ?_, ?_⟩ <;> rintro rfl <;> rw [encAcc_toNat]
  · rw [odrCode_r10_toNat hv]
    rfl
  · rw [odrCode_r12_toNat hv]
    rfl
  · rfl

/-- Settles O15: the byte is the sum of its fields. -/
theorem encmAnswersControlByte : Obligations.EncmAnswersControlByte := fun s mode modr =>
  ⟨encMag mode modr, exec_encm mode modr s, encMag_toNat mode modr⟩

end Sys2Proof.Machine

/-! PROOF. Two events of a transfer (42_transaction R140, R141), the closing `T.close` (R137), and the step Finish with
the retry policy (R150 to R155). -/

namespace Sys2Proof.Machine

/-! ## One step per event -/

theorem step_complete {s : State} (hb : s.bsy = true) (hp : s.ph.inTransfer = true) (he : s.env.move = some .complete) :
    step s = .next (onComplete s.pop) := by
  rw [step_transfer hb hp (noMoveBefore_of_move he rfl), transfer, he]

theorem step_addrNack {s : State} (hb : s.bsy = true) (hp : s.ph.inTransfer = true) (he : s.env.move = some .addrNack) :
    step s = .next (onAddrNack s.pop) := by
  rw [step_transfer hb hp (noMoveBefore_of_move he rfl), transfer, he]

theorem step_deposit {s : State} {b : Byte} (hb : s.bsy = true) (hp : s.ph.inTransfer = true)
    (he : s.env.move = some (.deposit b)) : step s = .next (onDeposit b s.pop) := by
  rw [step_transfer hb hp (noMoveBefore_of_move he rfl), transfer, he]

/-- R140: in a transfer, a handler is installed only until COMPLETE. -/
theorem Inv.addressPhase_of_handler {s : State} (hi : Inv s) (hp : s.ph.inTransfer = true) (hc : s.cbh ≠ .none) :
    s.ph = .addressPhaseSent :=
  (hi.handlerPhase hc).resolve_left fun h => by simp [h, Phase.inTransfer] at hp

/-! R140: what COMPLETE does, by the handler installed. -/

theorem onComplete_wrStage {s : State} (hc : s.cbh = .wrStage) :
    onComplete s = handlerFires .dataPhaseSent .continueWrite s := by simp only [onComplete, hc]

theorem onComplete_rdStage {s : State} (hc : s.cbh = .rdStage) :
    onComplete s = handlerFires .dataPhaseReceived .restartRead s := by simp only [onComplete, hc]

theorem onComplete_none {s : State} (hc : s.cbh = .none) :
    onComplete s = s.say [.complete, .answer .finish] := by simp only [onComplete, hc]

/-- Settles O28: the step is `onComplete`, which goes by the handler; the phase is the invariant's. -/
theorem completionEvent : Obligations.CompletionEvent := by
  intro s hb hp he
  rw [step_complete hb hp he]
  refine ⟨fun hc => ?_, fun hc => ?_, fun hc => ?_, fun hi => hi.addressPhase_of_handler hp⟩
  · rw [onComplete_wrStage (s := s.pop) hc]
    rfl
  · rw [onComplete_rdStage (s := s.pop) hc]
    rfl
  · rw [onComplete_none (s := s.pop) hc]
    rfl

/-- Settles O29: the invariant has the handler installed throughout a transfer. -/
theorem addressNackEvent : Obligations.AddressNackEvent := by
  intro s hi hb hp he
  have hn : s.pop.nah = .retry := hi.nackHandler hp
  rw [step_addrNack hb hp he, onAddrNack, if_pos hn]
  rfl

/-! ## The step Finish, one equation per end of an attempt -/

theorem finish_of_write {s : State} (hr : s.isRead = false) :
    finish s = (attemptEnds s).finishWith (.done s.lst 0) := by
  simp [finish, finishWrite, hr]

theorem finish_of_clean_read {s : State} (hr : s.isRead = true) (hl : s.lst = Config.stNoErr) :
    finish s = { (attemptEnds s).finishWith (.done s.lst s.dbuf) with att := 0 } := by
  simp [finish, finishRead, hr, hl]

theorem finish_of_exhausted_read {s : State} (hr : s.isRead = true) (hl : s.lst ≠ Config.stNoErr) (ha : s.att = 1) :
    finish s =
      { (attemptEnds s).finishWith (.done s.lst (Config.any8 s.draws)) with draws := s.draws + 1 } := by
  simp [finish, finishRead, hr, hl, ha]

theorem finish_of_failed_read {s : State} (hr : s.isRead = true) (hl : s.lst ≠ Config.stNoErr) (ha : s.att = 2) :
    finish s = (attemptEnds s).drawDbuf := by
  simp [finish, finishRead, hr, hl, ha]

/-- R25, R151: a write in flight has exactly one attempt left. -/
theorem Inv.att_of_write {s : State} (hi : Inv s) (hb : s.bsy = true) (hr : s.isRead = false) : s.att = 1 :=
  le_antisymm (hi.attempts.resolve_right ((isRead_false_iff s).mp hr)) (hi.attemptLeft hb)

/-- R25: a command in flight has one or two attempts left. -/
theorem Inv.att_one_or_two {s : State} (hi : Inv s) (hb : s.bsy = true) : s.att = 1 ∨ s.att = 2 := by
  have h : ∀ n : Fin 3, 1 ≤ n → n = 1 ∨ n = 2 := by decide
  exact h s.att (hi.attemptLeft hb)

/-- R137: what every end of an attempt does, and what it keeps. -/
theorem finish_closes (s : State) :
    (finish s).ph = .idle ∧ (finish s).port = [] ∧ (finish s).lst = s.lst ∧ (finish s).env = s.env ∧
      ((finish s).att = attemptUsed s.att ∨ s.isRead = true ∧ s.lst = Config.stNoErr ∧ (finish s).att = 0) := by
  rcases finish_cases s with ⟨-, h⟩ | ⟨hr, hl, h⟩ | ⟨-, -, -, h⟩ | ⟨-, -, -, h⟩ <;> rw [h]
  case inr.inl => exact ⟨rfl, rfl, rfl, rfl, .inr ⟨hr, hl, rfl⟩⟩
  all_goals exact ⟨rfl, rfl, rfl, rfl, .inl rfl⟩

/-- Settles O27: the closing poll, then what every end of an attempt does. -/
theorem closingSteps : Obligations.ClosingSteps := by
  refine ⟨fun s st hb hp he hst => ⟨_, step_close hb hp he hst, rfl⟩, fun s t _ hb hp hn hs => ?_⟩
  rw [step_finish hb hp hn] at hs
  cases hs
  obtain ⟨hph, hport, hlst, henv, hatt⟩ := finish_closes s
  exact ⟨hph, hport, hlst, henv, hatt.imp_left (congrArg Fin.val)⟩

/-- Settles O35: the end of a write, with its one attempt used up. -/
theorem writeNeverRetries : Obligations.WriteNeverRetries := by
  intro s hi hb hr hp hn
  rw [step_finish hb hp hn, finish_of_write hr, attemptEnds, hi.att_of_write hb hr]
  rfl

/-- Settles O36: the three ends of a read's attempt, told apart by the status and the attempts left. -/
theorem readRetryPolicy : Obligations.ReadRetryPolicy := by
  intro s hi hb hr hp hn
  rw [step_finish hb hp hn]
  refine ⟨fun hl => ?_, fun hl ha => ?_, fun hl ha => ⟨Config.any8 s.draws, ?_⟩, hi.att_one_or_two hb⟩
  · rw [finish_of_clean_read hr hl, ← hl]
    rfl
  · rw [finish_of_failed_read hr hl ha, attemptEnds, ha]
    rfl
  · rw [finish_of_exhausted_read hr hl ha, attemptEnds, ha]
    rfl

/-- Settles O37: the end of an exhausted read, whose byte is the draw of the step's own number. -/
theorem exhaustedReadByteIsADraw : Obligations.ExhaustedReadByteIsADraw := by
  intro s t _ hb hr hp ha hl hn hs
  rw [step_finish hb hp hn, finish_of_exhausted_read hr hl ha] at hs
  cases hs
  exact ⟨rfl, rfl, rfl⟩

end Sys2Proof.Machine

/-! PROOF. The invariant along runs: every step keeps it, so every run does. -/

namespace Sys2Proof.Machine

theorem Inv.idleStep {s : State} (hi : Inv s) (hb : s.bsy = false) : Inv (idleStep s) := by
  obtain ⟨-, hp, -⟩ := hi.quiet hb
  rcases idleStep_cases s with ⟨d, r, b, -, h⟩ | ⟨-, h⟩ | ⟨-, h⟩ <;> rw [h]
  · exact hi.cellChanges d r b
  · exact inv_resetBlock (s := s.pop) hi.memory (hi.noAttempt (.inl hp)).2.2
  · exact hi.say (env := s.env) (host := s.host)

/-- 10_state R40 over any step of the machine. -/
theorem Inv.of_step {s t : State} (hi : Inv s) (h : step s = .next t) : Inv t := by
  rcases step_cases s with ⟨hb, hs⟩ | ⟨hb, -, hs⟩ | ⟨-, -, r, hs⟩ | ⟨hb, -, op, d, r, v, ho, hs⟩ | ⟨hb, -, d, r, hs⟩ <;>
    rw [hs] at h <;> cases h
  · exact hi.busyStep hb
  · exact hi.popHost.idleStep hb
  · exact hi.popHost.emit r
  · exact hi.popHost.acceptWrite d r v hb ho
  · exact hi.popHost.acceptRead d r hb

theorem Inv.of_reaches {n : Nat} {s t : State} (hi : Inv s) (h : Reaches n s t) : Inv t := by
  induction n generalizing s with
  | zero => exact reaches_zero.mp h ▸ hi
  | succ n ih =>
    cases hs : step s with
    | next u => exact ih (hi.of_step hs) ((reaches_succ hs t).mp h)
    | fault r => cases r
    | refused r =>
      have hc : Sys2Proof.core.step s = .refused r := hs
      simp [Reaches, Host.Core.run, hc] at h

end Sys2Proof.Machine

/-! PROOF. Which byte a read answers (42_transaction R156): the attempts of a read as runs that keep track of `DBUF`. -/

namespace Sys2Proof.Machine

/-! ## Cell changes come first (log 3) -/

/-- `t` is `s` after some cell changes. -/
def SameButCells (s t : State) : Prop := t = { s with mem := t.mem, env := t.env, port := t.port, res := t.res }

section SameButCells

variable {s t u : State}

theorem SameButCells.refl (s : State) : SameButCells s s := rfl

theorem SameButCells.trans (h : SameButCells s t) (k : SameButCells t u) : SameButCells s u := by
  unfold SameButCells at *
  rw [h] at k
  exact k

theorem SameButCells.ph (h : SameButCells s t) : t.ph = s.ph := by rw [h]

theorem SameButCells.lst (h : SameButCells s t) : t.lst = s.lst := by rw [h]

theorem SameButCells.dbuf (h : SameButCells s t) : t.dbuf = s.dbuf := by rw [h]

theorem SameButCells.armed (h : SameButCells s t) : t.armed = s.armed := by rw [h]

theorem SameButCells.held (h : SameButCells s t) : Held s t := by
  rw [h]
  exact ⟨rfl, rfl, rfl, rfl, rfl, rfl, rfl⟩

end SameButCells

/-- An autonomous move that is no reset is a cell change. -/
theorem step_autonomous {s : State} {m : EnvMove} (hb : s.bsy = true) (he : s.env.move = some m)
    (ha : m.isAutonomous = true) (hr : m.isReset = false) :
    ∃ u, step s = .next u ∧ SameButCells s u ∧ u.env = s.env.next := by
  cases m with
  | cell d r b =>
    have hs : busyStep s = cellChanges d r b s.pop := by rw [busyStep, he]
    rw [step_busy hb, hs]
    exact ⟨_, rfl, rfl, rfl⟩
  | reset => cases hr
  | _ => cases ha

/-- In any phase, the cell changes at the head of the moves are made first; then it is the block's turn. -/
theorem cells_run {s : State} {moves more : List EnvMove} {m : EnvMove} {rest : Environment} (hb : s.bsy = true)
    (he : Environment.Begins (moves ++ m :: more) s.env rest) (hr : ∀ x ∈ moves, x.isReset = false)
    (hm : m.isAutonomous = false) :
    ∃ n t left, Reaches n s t ∧ SameButCells s t ∧ NoMoveBefore t.env ∧
      Environment.Begins (left ++ m :: more) t.env rest ∧ left ⊆ moves := by
  induction moves generalizing s with
  | nil => exact ⟨0, s, [], .refl s, .refl s, noMoveBefore_of_move he.1 hm, he, List.Subset.refl _⟩
  | cons x moves ih =>
    cases ha : x.isAutonomous with
    | false => exact ⟨0, s, x :: moves, .refl s, .refl s, noMoveBefore_of_move he.1 ha, he, List.Subset.refl _⟩
    | true =>
      obtain ⟨hrx, hr⟩ := List.forall_mem_cons.mp hr
      obtain ⟨u, hu, hsu, hue⟩ := step_autonomous hb he.1 ha hrx
      obtain ⟨n, t, left, ht, hut, hn, hte, hl⟩ := ih (hsu.held.bsy.trans hb) (hue ▸ he.2) hr
      exact ⟨n + 1, t, left, .head hu ht, hsu.trans hut, hn, hte, List.subset_cons_of_subset x hl⟩

theorem EnvMove.not_reset_of_keepsWaiting {m : EnvMove} (h : m.keepsWaiting = true) : m.isReset = false := by
  cases m with
  | reset => cases h
  | _ => rfl

theorem EnvMove.not_reset_of_keepsTransferring {m : EnvMove} (h : m.keepsTransferring) : m.isReset = false := by
  cases m with
  | reset => cases h
  | _ => rfl

/-! ## A read in flight -/

/-- What holds of a read from its acceptance to its result. -/
structure Reading (s : State) : Prop where
  inv : Inv s
  busy : s.bsy = true
  read : s.isRead = true

theorem Reading.reaches {n : Nat} {s t : State} (h : Reading s) (ht : Reaches n s t) (hst : Held s t) : Reading t :=
  ⟨h.inv.of_reaches ht, hst.bsy.trans h.busy, hst.isRead.trans h.read⟩

/-- S1 (R132): waiting, then the grant. -/
theorem grant_run {s : State} {waiting more : List EnvMove} {rest : Environment} (h : Reading s) (hp : s.ph = .idle)
    (he : Environment.Begins (waiting ++ .grant true :: more) s.env rest) (hw : ∀ m ∈ waiting, m.keepsWaiting = true) :
    ∃ n t, Reaches n s t ∧ t.ph = .busAcquired ∧ t.armed = none ∧ Environment.Begins more t.env rest ∧
      Held s t ∧ t.dbuf = s.dbuf := by
  obtain ⟨mid, hwait, hgrant⟩ := Environment.begins_append.mp he
  obtain ⟨t, ht, hti, htp, rfl, hst, htd⟩ := wait_run waiting mid h.inv h.busy hp hwait hw
  have ha : acquire t = openCall true t.pop := by simp [acquire, openAnswer, hgrant.1]
  have hu : step t = .next (openCall true t.pop) := by
    rw [step_acquire (hst.bsy.trans h.busy) htp (noMoveBefore_of_move hgrant.1 rfl), ha]
  exact ⟨_, _, ht.trans (.one hu), rfl, (hti.noAttempt (.inl htp)).2.2, hgrant.2,
    hst.trans ⟨rfl, rfl, rfl, rfl, rfl, rfl, rfl⟩, htd⟩

/-- S1 to S5 (R132, R133): from `Idle` to the address phase, `DBUF` kept. Of the moves after the grant only cell changes
are used up, so the next one the block answers is still to come. -/
theorem start_run {s : State} {waiting moves more : List EnvMove} {m : EnvMove} {rest : Environment} (h : Reading s)
    (hp : s.ph = .idle) (he : Environment.Begins (waiting ++ .grant true :: (moves ++ m :: more)) s.env rest)
    (hw : ∀ x ∈ waiting, x.keepsWaiting = true) (hk : ∀ x ∈ moves, x.keepsTransferring) (hm : m.isAutonomous = false) :
    ∃ n t left, Reaches n s t ∧ t.ph = .addressPhaseSent ∧ Environment.Begins (left ++ m :: more) t.env rest ∧
      left ⊆ moves ∧ Held s t ∧ t.dbuf = s.dbuf := by
  obtain ⟨_, t, ht, htp, hta, hte, hst, htd⟩ := grant_run h hp he hw
  have ht' := h.reaches ht hst
  obtain ⟨_, u, left, hu, htu, hn, hue, hl⟩ := cells_run ht'.busy hte
    (fun x hx => EnvMove.not_reset_of_keepsTransferring (hk x hx)) hm
  have hu' := ht'.reaches hu htu.held
  have hup : u.ph = .busAcquired := htu.ph.trans htp
  have hua : u.armed = none := htu.armed.trans hta
  obtain ⟨-, hcbh, hnah⟩ := hu'.inv.settingUp hup
  obtain ⟨hv, -⟩ := setUp_run hu'.busy hup hua (hcbh hua) (hnah (hcbh hua)) hn
  exact ⟨_, _, left, ht.trans (hu.trans hv), rfl, hue, hl,
    (hst.trans htu.held).trans ⟨rfl, rfl, rfl, rfl, rfl, rfl, rfl⟩, htu.dbuf.trans htd⟩

/-! ## `DBUF` during the transfer (R63) -/

/-- What the moves of a transfer keep while none of them makes a deposit. -/
structure BufferKept (s t : State) : Prop where
  dbuf : t.dbuf = s.dbuf
  deposited : t.deposited = s.deposited
  receiving : s.ph = .dataPhaseReceived → t.ph = .dataPhaseReceived

theorem BufferKept.refl (s : State) : BufferKept s s := ⟨rfl, rfl, id⟩

theorem BufferKept.trans {s t u : State} (h : BufferKept s t) (k : BufferKept t u) : BufferKept s u :=
  ⟨k.dbuf.trans h.dbuf, k.deposited.trans h.deposited, k.receiving ∘ h.receiving⟩

/-- A move other than the first deposit keeps the buffer. -/
theorem keep_step_buffer {s u : State} {m : EnvMove} (h : Reading s) (hp : s.ph.inTransfer = true)
    (he : s.env.move = some m) (hm : m.keepsTransferring) (hd : s.deposited = true ∨ m.isDeposit = false)
    (hs : step s = .next u) : BufferKept s u := by
  rcases busyStep_cases s with ⟨_, _, _, -, hcell⟩ | ⟨he', -⟩ | ⟨hn, -⟩
  · rw [step_busy h.busy, hcell] at hs
    cases hs
    exact ⟨rfl, rfl, id⟩
  · cases he.symm.trans he'
    exact hm.elim
  · rw [step_transfer h.busy hp hn] at hs
    cases hs
    rcases transfer_cases s with ⟨_, hs⟩ | ⟨-, hc, -⟩ | ⟨-, -, hs⟩ | ⟨b, he', -, hdep, -⟩ | ⟨-, -, hs⟩ | ⟨st, he', hst, -⟩
    · rw [hs]
      exact ⟨rfl, rfl, id⟩
    · exact absurd ((h.inv.writeHandler hc).symm.trans h.read) Bool.false_ne_true
    · rw [hs]
      exact ⟨rfl, rfl, fun _ => rfl⟩
    · cases he.symm.trans he'
      rcases hd with hd | hd
      · exact absurd (hdep.symm.trans hd) Bool.false_ne_true
      · cases hd
    · rw [hs]
      exact ⟨rfl, rfl, id⟩
    · cases he.symm.trans he'
      exact absurd hm hst

/-- Any number of such moves: no deposits, or the attempt has had its deposit. -/
theorem keep_run_buffer {s : State} (moves : List EnvMove) (rest : Environment) (h : Reading s)
    (hp : s.ph.inTransfer = true) (he : Environment.Begins moves s.env rest) (hm : ∀ m ∈ moves, m.keepsTransferring)
    (hd : s.deposited = true ∨ ∀ m ∈ moves, m.isDeposit = false) :
    ∃ n t, Reaches n s t ∧ t.ph.inTransfer = true ∧ t.env = rest ∧ Held s t ∧ BufferKept s t := by
  induction moves generalizing s with
  | nil => exact ⟨0, s, .refl s, hp, he, .refl s, .refl s⟩
  | cons m moves ih =>
    obtain ⟨hm, hms⟩ := List.forall_mem_cons.mp hm
    obtain ⟨u, hu, hup, hue, hsu, -⟩ := keep_step h.inv h.busy hp he.1 hm
    have hbuf := keep_step_buffer h hp he.1 hm (hd.imp_right fun hd => hd m List.mem_cons_self) hu
    obtain ⟨n, t, ht, htp, hte, hut, hkept⟩ := ih (h.reaches (.one hu) hsu) hup (hue ▸ he.2) hms
      (hd.imp hbuf.deposited.trans fun hd x hx => hd x (List.mem_cons_of_mem _ hx))
    exact ⟨n + 1, t, .head hu ht, htp, hte, hsu.trans hut, hbuf.trans hkept⟩

/-- COMPLETE, whether or not it is the first of its attempt, leaves a read in its data phase (R140). -/
theorem complete_step_of_read {s : State} (h : Reading s) (hp : s.ph.inTransfer = true)
    (he : s.env.move = some .complete) :
    ∃ u, step s = .next u ∧ u.ph = .dataPhaseReceived ∧ u.env = s.env.next ∧ Held s u ∧ u.deposited = s.deposited := by
  rw [step_complete h.busy hp he]
  cases hc : s.cbh with
  | none =>
    rw [onComplete_none (s := s.pop) hc]
    refine ⟨_, rfl, ?_, rfl, ⟨rfl, rfl, rfl, rfl, rfl, rfl, rfl⟩, rfl⟩
    show s.ph = .dataPhaseReceived
    cases hph : s.ph with
    | addressPhaseSent => exact absurd hc (h.inv.addressPhase hph).1
    | dataPhaseReceived => rfl
    | dataPhaseSent => exact absurd ((isRead_iff s).mp h.read) (writeOpcode_ne_read (h.inv.sentByWrite hph))
    | _ => simp [hph, Phase.inTransfer] at hp
  | wrStage => exact absurd ((h.inv.writeHandler hc).symm.trans h.read) Bool.false_ne_true
  | rdStage =>
    rw [onComplete_rdStage (s := s.pop) hc]
    exact ⟨_, rfl, rfl, rfl, ⟨rfl, rfl, rfl, rfl, rfl, rfl, rfl⟩, rfl⟩

/-- The first deposit of an attempt reaches `DBUF` (R63). -/
theorem deposit_step {s : State} {b : Byte} (hb : s.bsy = true) (hp : s.ph = .dataPhaseReceived)
    (hd : s.deposited = false) (he : s.env.move = some (.deposit b)) :
    step s = .next { s.pop.say [.deposit b] with dbuf := b, deposited := true } := by
  rw [step_deposit hb (by rw [hp]; rfl) he, onDeposit, if_pos (by simp [depositAllowed, hp, hd])]

/-- R156: the first deposit after a COMPLETE is in `DBUF` at the end of the transfer. -/
theorem first_deposit_run {s : State} {b : Byte} {before between after : List EnvMove} {rest : Environment}
    (h : Reading s) (hp : s.ph.inTransfer = true) (hd : s.deposited = false)
    (he : Environment.Begins (before ++ .complete :: (between ++ .deposit b :: after)) s.env rest)
    (hm : ∀ m ∈ before ++ .complete :: (between ++ .deposit b :: after), m.keepsTransferring)
    (hbefore : ∀ m ∈ before, m.isDeposit = false) (hbetween : ∀ m ∈ between, m.isDeposit = false) :
    ∃ n t, Reaches n s t ∧ t.ph.inTransfer = true ∧ t.env = rest ∧ Held s t ∧ t.dbuf = b := by
  simp only [List.forall_mem_append, List.forall_mem_cons] at hm
  obtain ⟨hmBefore, -, hmBetween, -, hmAfter⟩ := hm
  obtain ⟨_, hBefore, he⟩ := Environment.begins_append.mp he
  obtain ⟨_, t, ht, htp, rfl, hst, htk⟩ := keep_run_buffer before _ h hp hBefore hmBefore (.inr hbefore)
  replace h := h.reaches ht hst
  obtain ⟨u, hu, hup, hue, htu, hud⟩ := complete_step_of_read h htp he.1
  replace h := h.reaches (.one hu) htu
  obtain ⟨_, hBetween, he⟩ := Environment.begins_append.mp (hue ▸ he.2)
  obtain ⟨_, v, hv, -, rfl, huv, hvk⟩ := keep_run_buffer between _ h (by rw [hup]; rfl) hBetween hmBetween (.inr hbetween)
  replace h := h.reaches hv huv
  have hvp := hvk.receiving hup
  have hw := deposit_step h.busy hvp (hvk.deposited.trans (hud.trans (htk.deposited.trans hd))) he.1
  have hvw : Held v { v.pop.say [.deposit b] with dbuf := b, deposited := true } :=
    ⟨rfl, rfl, rfl, rfl, rfl, rfl, rfl⟩
  obtain ⟨_, x, hx, hxp, hxe, hwx, hxk⟩ :=
    keep_run_buffer after _ (h.reaches (.one hw) hvw) (congrArg Phase.inTransfer hvp) he.2 hmAfter (.inl rfl)
  exact ⟨_, x, ht.trans (.head hu (hv.trans (.head hw hx))), hxp, hxe, hst.trans (htu.trans (huv.trans (hvw.trans hwx))),
    hxk.dbuf⟩

/-! ## The ends of the attempts -/

/-- R153: a clean status ends the read with the byte of `DBUF`. -/
theorem clean_read_run {s : State} {rest : Environment} (h : Reading s) (hp : s.ph.inTransfer = true)
    (he : Environment.Begins [.status Config.stNoErr] s.env rest) (hn : NoMoveBefore rest) :
    ∃ n t, Reaches n s t ∧ t.res = some ⟨.done, Config.stNoErr, s.dbuf⟩ ∧ t.dbuf = s.dbuf ∧ t.env = rest ∧
      Quiescent t := by
  obtain ⟨he, rfl⟩ := he
  have hc := step_close h.busy hp he stNoErr_ne_stBusy
  have hf := (readRetryPolicy _ (h.inv.of_step hc) h.busy h.read rfl hn).1 rfl
  exact ⟨_, _, .head hc (.one hf), rfl, rfl, rfl, rfl, rfl, rfl, rfl, rfl⟩

/-- R154: a failed first attempt leads to the second, with a draw in `DBUF`, whatever the first deposited. -/
theorem failed_read_run {s : State} {st : Status} {script waiting more : List EnvMove} {rest : Environment}
    (h : Reading s) (hp : s.ph = .idle) (ha : s.att = 2) (hs : AttemptScript st script) (hst : st ≠ Config.stNoErr)
    (hw : ∀ m ∈ waiting, m.keepsWaiting = true)
    (he : Environment.Begins (script ++ (waiting ++ .grant true :: more)) s.env rest) :
    ∃ n t left, Reaches n s t ∧ Reading t ∧ t.ph = .idle ∧ t.dbuf = Config.any8 s.draws ∧
      Environment.Begins (left ++ .grant true :: more) t.env rest ∧ left ⊆ waiting := by
  obtain ⟨_, hscript, he⟩ := Environment.begins_append.mp he
  obtain ⟨_, t, ht, -, htp, htl, rfl, hst', -⟩ := attempt_run h.inv h.busy hp hscript hs
  have ht' := h.reaches ht hst'
  obtain ⟨_, u, left, hu, htu, hn, hue, hl⟩ := cells_run ht'.busy he
    (fun x hx => EnvMove.not_reset_of_keepsWaiting (hw x hx)) rfl
  have hsu := hst'.trans htu.held
  have hu' := ht'.reaches hu htu.held
  have hf := (readRetryPolicy u hu'.inv hu'.busy hu'.read (htu.ph.trans htp) hn).2.1
    (fun hl => hst (htl.symm.trans (htu.lst.symm.trans hl))) (hsu.att.trans ha)
  exact ⟨_, _, left, ht.trans (hu.trans (.one hf)), ⟨hu'.inv.of_step hf, hu'.busy, hu'.read⟩, rfl,
    congrArg Config.any8 hsu.draws, hue, hl⟩

/-- R154: from an accepted read whose first attempt fails to the start of the transfer of its second, with the draw of the
second step S0 in `DBUF` and the transfer's moves from `m` on still to come. -/
theorem second_transfer_run {s : State} {st : Status} {script waiting moves more : List EnvMove} {m : EnvMove}
    {rest : Environment} (h : Reading s) (hp : s.ph = .idle) (ha : s.att = 2) (hs : AttemptScript st script)
    (hst : st ≠ Config.stNoErr) (hw : ∀ x ∈ waiting, x.keepsWaiting = true) (hk : ∀ x ∈ moves, x.keepsTransferring)
    (hm : m.isAutonomous = false)
    (he : Environment.Begins (script ++ (waiting ++ .grant true :: (moves ++ m :: more))) s.env rest) :
    ∃ n t left, Reaches n s t ∧ Reading t ∧ t.ph = .addressPhaseSent ∧ t.dbuf = Config.any8 s.draws ∧
      Environment.Begins (left ++ m :: more) t.env rest ∧ left ⊆ moves := by
  obtain ⟨_, t, waits, ht, htr, htp, htd, hte, hl⟩ := failed_read_run h hp ha hs hst hw he
  obtain ⟨_, u, left, hu, hup, hue, hleft, htu, hud⟩ := start_run htr htp hte (fun x hx => hw x (hl hx)) hk hm
  exact ⟨_, u, left, ht.trans hu, htr.reaches hu htu, hup, hud.trans htd, hue, hleft⟩

theorem exec_rd (dev reg : Byte) (s : State) :
    exec (.rd dev reg) s = .next (s.accept 0x4#4 Config.rdAttempts dev reg).drawDbuf := rfl

/-- Settles O38: the second attempt starts its transfer with its own draw in `DBUF`; only its first deposit replaces it. -/
theorem secondAttemptsByteIsReturned : Obligations.SecondAttemptsByteIsReturned := by
  intro s u dev reg st script waiting second rest hi hb hs hst hw hk hn hx he
  rw [exec_rd] at hx
  cases hx
  have h : Reading (s.accept 0x4#4 Config.rdAttempts dev reg).drawDbuf := ⟨hi.acceptRead dev reg hb, rfl, rfl⟩
  obtain ⟨-, hp, -⟩ := hi.quiet hb
  refine ⟨fun b before between after hsecond hdep => ?_, fun hdep => ?_⟩
  · subst hsecond
    rw [List.forall_mem_append] at hk hdep
    rw [List.append_assoc, List.cons_append] at he
    obtain ⟨_, t, left, ht, htr, htp, -, hte, hl⟩ := second_transfer_run h hp rfl hs hst hw hk.1 rfl he
    rw [← List.cons_append, ← List.append_assoc] at hte
    obtain ⟨_, hevents, hstatus⟩ := Environment.begins_append.mp hte
    obtain ⟨_, v, hv, hvp, rfl, htv, rfl⟩ := first_deposit_run htr (by rw [htp]; rfl) (htr.inv.addressPhase htp).2.2 hevents
      (List.forall_mem_append.mpr ⟨fun x hx => hk.1 x (hl hx), hk.2⟩) (fun x hx => hdep.1 x (hl hx)) hdep.2
    obtain ⟨_, w, hw, hres, hdbuf, henv, hquiet⟩ := clean_read_run (htr.reaches hv htv) hvp hstatus hn
    exact ⟨_, w, ht.trans (hv.trans hw), hres, hdbuf, henv, hquiet⟩
  · obtain ⟨_, t, left, ht, htr, htp, htd, hte, hl⟩ := second_transfer_run h hp rfl hs hst hw hk rfl he
    obtain ⟨_, hevents, hstatus⟩ := Environment.begins_append.mp hte
    obtain ⟨_, v, hv, hvp, rfl, htv, hkept⟩ := keep_run_buffer left _ htr (by rw [htp]; rfl) hevents
      (fun x hx => hk x (hl hx)) (.inr fun x hx => hdep x (hl hx))
    obtain ⟨_, w, hw, hres, -, henv, hquiet⟩ := clean_read_run (htr.reaches hv htv) hvp hstatus hn
    rw [hkept.dbuf, htd] at hres
    exact ⟨_, w, ht.trans (hv.trans hw), hres, henv, hquiet⟩

end Sys2Proof.Machine

/-! PROOF. Sign extension (44_annex R181): the mask covers the bits below the sign bit, and half range is where the sign
bit begins to be set. -/

namespace Sys2Proof.Machine

/-- Bit `i` of the complement of R181's mask, `2^(n-1) - 1`: set from the sign bit upwards. -/
theorem getLsbD_not_lowMask {w i : Nat} (n : Nat) (hi : i < w) :
    (~~~(BitVec.ofNat w (2 ^ (n - 1) - 1))).getLsbD i = !decide (i < n - 1) := by
  rw [BitVec.getLsbD_not, BitVec.getLsbD_ofNat, Nat.testBit_two_pow_sub_one]
  simp [hi]

/-- With the sign bit set, the OR keeps the bits below it and sets it and all above, as sign extension does. -/
theorem sextNative_eq_signExtend (n w : Nat) (v : BitVec n) : sextNative n w v = v.signExtend w := by
  rw [sextNative, ← BitVec.msb_eq_getLsbD_last]
  cases hmsb : v.msb with
  | false => exact (BitVec.signExtend_eq_setWidth_of_msb_false hmsb).symm
  | true =>
    have hsign : v.getLsbD (n - 1) = true := v.msb_eq_getLsbD_last ▸ hmsb
    refine BitVec.eq_of_getLsbD_eq fun i hi => ?_
    rw [if_pos rfl, BitVec.getLsbD_or, getLsbD_not_lowMask n hi, BitVec.getLsbD_setWidth, BitVec.getLsbD_signExtend, hmsb]
    obtain hlow | rfl | hhigh : i < n - 1 ∨ i = n - 1 ∨ n ≤ i := by omega
    · have hn : i < n := by omega
      simp [hi, hlow, hn]
    · simp [hi, hsign]
    · have hn : ¬ i < n := by omega
      have hmask : ¬ i < n - 1 := by omega
      simp [hi, hn, hmask]

theorem toInt_sextNative {n w : Nat} (v : BitVec n) (hw : n ≤ w) : (sextNative n w v).toInt = v.toInt := by
  rw [sextNative_eq_signExtend, BitVec.toInt_signExtend_of_le hw]

theorem sext_eq_toInt (n : Nat) (v : BitVec n) : sext n v = v.toInt := by
  rw [sext, BitVec.toInt_eq_msb_cond, BitVec.msb_eq_decide]
  by_cases h : v.toNat < 2 ^ (n - 1)
  · rw [if_pos h, if_neg (by simpa using h)]
  · rw [if_neg h, if_pos (by simpa using h)]
    push_cast
    rfl

/-- Settles O57: R181's OR is sign extension, which keeps the two's-complement value. -/
theorem signExtensionIsTwosComplement : Obligations.SignExtensionIsTwosComplement :=
  ⟨fun _ v hw => ⟨toInt_sextNative v hw, sext_eq_toInt 8 v⟩, fun _ v hw => ⟨toInt_sextNative v hw, sext_eq_toInt 16 v⟩⟩

end Sys2Proof.Machine

/-! PROOF. The two errors of acceptance (60_exceptions R201, R202): a word that spells no command is refused at decode, and
an invalid configuration leaves only its result behind, which no later step reads. -/

namespace Sys2Proof.Machine

/-! ## A decoded word is not one of R91 -/

/-- R88, R91: the operands of format A exclude the rates from 11 on and the resolution 3. -/
theorem accFields_members {w : Word32} {f : Scale × Resolution × Odr} (h : accFields w = some f) :
    w.toNat / 2 ^ 4 % 2 ^ 4 ≤ 10 ∧ w.toNat % 2 ^ 2 ≠ 3 := by
  obtain ⟨-, hres, hodr, hmember⟩ := accFields_eq_some.mp h
  rw [← fieldOdr_toNat, ← hodr, ← fieldRes_toNat, ← hres]
  exact ⟨(odrMember_iff _).mp hmember, fun h3 => by simp [← Resolution.ofOrdinal_eq_none] at h3⟩

/-- R88, R91: the operands of format M exclude the mode 3. -/
theorem magFields_member {w : Word32} {f : MagMode × MagOdr} (h : magFields w = some f) : w.toNat % 2 ^ 2 ≠ 3 := by
  obtain ⟨hmode, -⟩ := magFields_eq_some.mp h
  rw [← fieldMode_toNat, ← hmode]
  exact fun h3 => by simp [← MagMode.ofOrdinal_eq_none] at h3

/-- R85, R91: the fixed bits of the row and the members of its enumerations rule out every clause of R91. -/
theorem not_illegalWord_of_decode {w : Word32} {i : Instr} (h : decode w = .ok i) : ¬ IllegalWord w := by
  obtain ⟨o, -, hmask, hoperands⟩ := decode_eq_ok.mp h
  have hbits := (mask_eq_pattern o w).mp hmask
  cases o <;> simp only [fixedBits] at hbits <;> unfold IllegalWord
  case wr | rd => omega
  case enca | cfga =>
    obtain ⟨_, hf, -⟩ := Option.map_eq_some_iff.mp hoperands
    have := accFields_members hf
    omega
  case encm | cfgm =>
    obtain ⟨_, hf, -⟩ := Option.map_eq_some_iff.mp hoperands
    have := magFields_member hf
    omega

theorem decode_error_of_illegalWord {w : Word32} (h : IllegalWord w) : ∃ e, decode w = .error e := by
  cases hd : decode w with
  | error e => exact ⟨e, rfl⟩
  | ok i => exact absurd h (not_illegalWord_of_decode hd)

/-- Settles O8: an illegal word does not decode, and a word that does not decode raises its error in the step that takes
it. -/
theorem illegalCommandChangesNothing : Obligations.IllegalCommandChangesNothing := by
  intro s w rest hb hh hw
  obtain ⟨e, he⟩ := hw.elim decode_error_of_illegalWord id
  exact (step_presented ((cmdReady_iff s).mpr hb) hh).2 e he

/-! ## No step reads the output ports

Every branch of a step writes both ports, so a result left there by an earlier step makes no difference. -/

section OutputPorts

variable (r : Result) (s : State)

theorem acquire_emit : acquire (s.emit r) = acquire s := rfl

theorem setUp_emit : setUp (s.emit r) = setUp s := rfl

theorem transfer_emit : transfer (s.emit r) = transfer s := rfl

theorem finish_emit : finish (s.emit r) = finish s := rfl

theorem attemptStep_emit : attemptStep (s.emit r) = attemptStep s := by
  cases hp : s.ph <;>
    simp only [attemptStep, State.emit_ph, hp, acquire_emit, setUp_emit, transfer_emit, finish_emit]

theorem busyStep_emit : busyStep (s.emit r) = busyStep s := by
  unfold busyStep
  rw [State.emit_env, attemptStep_emit]
  rfl

theorem idleStep_emit : idleStep (s.emit r) = idleStep s := rfl

theorem exec_emit (i : Instr) : exec i (s.emit r) = exec i s := by cases i <;> rfl

theorem popHost_emit : (s.emit r).popHost = s.popHost.emit r := rfl

theorem raiseError_emit (kind : Kind) : raiseError kind (s.emit r) = raiseError kind s := rfl

/-- R86, R208: the step after a result is the one that would have been made without it. -/
theorem step_emit : step (s.emit r) = step s := by
  cases hb : s.bsy with
  | true => rw [step_busy hb, step_busy (s := s.emit r) hb, busyStep_emit]
  | false =>
    cases hw : s.cmdWord with
    | none => rw [step_idle hb hw, step_idle (s := s.emit r) hb hw, popHost_emit, idleStep_emit]
    | some w =>
      cases hd : decode w with
      | error e =>
        rw [step_refuses hb hw hd, step_refuses (s := s.emit r) hb hw hd, popHost_emit, raiseError_emit]
      | ok i =>
        rw [step_accepts hb hw hd, step_accepts (s := s.emit r) hb hw hd, popHost_emit, exec_emit]

end OutputPorts

/-! ## The configuration commands -/

section InvalidPair

variable (scale : Scale) {res : Resolution} {odr : Odr} (s : State)

theorem exec_enca_invalid (hm : odr.toNat ≤ 10) (hv : validAcc res odr = false) :
    exec (.enca scale res odr) s = .next (s.emit ⟨.invalidConfiguration, 0, 0⟩) := by
  simp [exec, execEnca, raiseError, (odrMember_iff odr).mpr hm, hv]

theorem exec_cfga_invalid (hm : odr.toNat ≤ 10) (hv : validAcc res odr = false) :
    exec (.cfga scale res odr) s = .next (s.emit ⟨.invalidConfiguration, 0, 0⟩) := by
  simp [exec, execCfga, raiseError, (odrMember_iff odr).mpr hm, hv]

end InvalidPair

theorem exec_cfgm (mode : MagMode) (modr : MagOdr) (s : State) :
    exec (.cfgm mode modr) s = .next (s.acceptWrite 0x6#4 magTarget.1 magTarget.2 (encMag mode modr)) := rfl

/-- Settles O19: both commands answer with a result and nothing else, which the next step does not read; ENCM answers
DONE, and CFGM is accepted without a result. -/
theorem invalidConfigurationLeavesNoTrace : Obligations.InvalidConfigurationLeavesNoTrace := by
  refine ⟨?_, fun s scale res odr hm hv =>
    ⟨⟨_, exec_enca_invalid scale s hm hv⟩, _, exec_cfga_invalid scale s hm hv⟩, ?_⟩
  · rintro i s t ht ⟨scale, res, odr, hm, hv, rfl | rfl⟩
    · cases (exec_enca_invalid scale s hm hv).symm.trans ht
      exact ⟨rfl, step_emit _ s⟩
    · cases (exec_cfga_invalid scale s hm hv).symm.trans ht
      exact ⟨rfl, step_emit _ s⟩
  · rintro s t mode modr (ht | ht) r hr
    · cases (exec_encm mode modr s).symm.trans ht
      cases hr
      exact Kind.noConfusion
    · cases (exec_cfgm mode modr s).symm.trans ht
      cases hr

end Sys2Proof.Machine

/-! PROOF. The two waits without end (70 R241, R242): an environment that never makes the move the block waits for keeps
it in acquisition, or in the transfer, for ever. -/

namespace Sys2Proof.Machine

/-! ## Runs without end -/

theorem Reaches.unique {n : Nat} {s t u : State} (h : Reaches n s t) (k : Reaches n s u) : t = u :=
  Host.Outcome.next.inj (h.symm.trans k)

/-- The induction of both waits. When every move to come has `p`, and under such a move a step from a `good` state uses the
move up and leads to a `good` state, then so does any number of steps; `kept` relates where they start and where they lead. -/
theorem endless_run {p : EnvMove → Prop} {good : State → Prop} {kept : State → State → Prop}
    (htrans : ∀ s u t, kept s u → kept u t → kept s t)
    (hstep : ∀ s, good s → (∀ m, s.env.move = some m → p m) →
      ∃ u, step s = .next u ∧ u.env = s.env.next ∧ good u ∧ kept s u)
    {s : State} (n : Nat) (hg : good s) (he : s.env.Always p) :
    ∃ t, Reaches (n + 1) s t ∧ t.env = s.env.drop (n + 1) ∧ good t ∧ kept s t := by
  obtain ⟨u, hu, hue, hug, hsu⟩ := hstep s hg fun _ hm => he.head hm
  induction n generalizing s u with
  | zero => exact ⟨u, .one hu, hue, hug, hsu⟩
  | succ n ih =>
    have hnext : u.env.Always p := hue ▸ he.tail
    obtain ⟨v, hv, hve, hvg, huv⟩ := hstep u hug fun _ hm => hnext.head hm
    obtain ⟨t, ht, hte, htg, hut⟩ := ih hug hnext v hv hve hvg huv
    exact ⟨t, .head hu ht, by rw [hte, hue]; rfl, htg, htrans s u t hsu hut⟩

/-- Only the environment's moves are used up; the port shows the call `poll` and there is no result. -/
def OnlyPolled (poll : PortItem) (s t : State) : Prop := t = { s with env := t.env, port := [poll], res := none }

theorem OnlyPolled.trans {poll : PortItem} {s u t : State} (h : OnlyPolled poll s u) (k : OnlyPolled poll u t) :
    OnlyPolled poll s t := by
  unfold OnlyPolled at *
  rw [h] at k
  exact k

/-! ## Waiting for the bus (R241) -/

/-- The block is at S1, asking for the bus. -/
structure Acquiring (s : State) : Prop where
  busy : s.bsy = true
  idle : s.ph = .idle

/-- A cell changes, or `T.open` is refused. -/
theorem step_without_grant {s : State} (h : Acquiring s) (hm : ∀ m, s.env.move = some m → m.keepsWaiting = true) :
    ∃ u, step s = .next u ∧ u.env = s.env.next ∧ Acquiring u ∧ SameButCells s u ∧ u.res = none := by
  rcases busyStep_cases s with ⟨d, r, b, -, hs⟩ | ⟨he, -⟩ | ⟨hn, -⟩
  · exact ⟨_, (step_busy h.busy).trans (congrArg _ hs), rfl, ⟨h.busy, h.idle⟩, rfl, rfl⟩
  · exact absurd (hm .reset he) Bool.false_ne_true
  · rw [step_acquire h.busy h.idle hn]
    rcases acquire_cases s with ha | ⟨he, -⟩
    · exact ⟨_, congrArg _ ha, rfl, ⟨h.busy, h.idle⟩, rfl, rfl⟩
    · exact absurd (hm (.grant true) he) Bool.false_ne_true

theorem step_refused {s : State} (h : Acquiring s) (hm : ∀ m, s.env.move = some m → m = .grant false) :
    step s = .next (s.pop.say [.tOpen s.dev false]) := by
  have hn : NoMoveBefore s.env := fun m he => hm m he ▸ rfl
  rw [step_acquire h.busy h.idle hn]
  rcases acquire_cases s with ha | ⟨he, -⟩
  · rw [ha]
  · cases hm (.grant true) he

theorem run_without_grant {s : State} (n : Nat) (h : Acquiring s) (he : s.env.Always fun m => m.keepsWaiting = true) :
    ∃ t, Reaches (n + 1) s t ∧ t.env = s.env.drop (n + 1) ∧ Acquiring t ∧ SameButCells s t ∧ t.res = none :=
  endless_run (kept := fun s t => SameButCells s t ∧ t.res = none)
    (fun _ _ _ hsu hut => ⟨hsu.1.trans hut.1, hut.2⟩) (fun _ => step_without_grant) n h he

theorem run_refused {s : State} (n : Nat) (h : Acquiring s) (he : s.env.Always fun m => m = .grant false) :
    ∃ t, Reaches (n + 1) s t ∧ OnlyPolled (.tOpen s.dev false) s t := by
  obtain ⟨t, ht, -, -, hst⟩ := endless_run (good := fun u => Acquiring u ∧ u.dev = s.dev)
    (kept := OnlyPolled (.tOpen s.dev false)) (fun _ _ _ => .trans)
    (fun u ⟨hu, hd⟩ hm => ⟨_, step_refused hu hm, rfl, ⟨⟨hu.busy, hu.idle⟩, hd⟩, by rw [hd]; rfl⟩) n ⟨h, rfl⟩ he
  exact ⟨t, ht, hst⟩

/-- Settles O43: without a grant each step leaves the block asking for the bus; when all moves are refusals the same run
only polls. -/
theorem hangAtAcquisition : Obligations.HangAtAcquisition := by
  intro s n hb hp he
  have h : Acquiring s := ⟨hb, hp⟩
  obtain ⟨t, ht, hte, htg, hst, hres⟩ := run_without_grant n h he
  refine ⟨t, ht, (cmdReady_false_iff t).mpr htg.busy, by simp [State.resValid, hres], ?_, fun hr => ?_⟩
  · rw [← hte, ← hres]
    exact hst
  · obtain ⟨t', ht', hpoll⟩ := run_refused n h hr
    rw [ht.unique ht', hpoll]
    exact ⟨rfl, rfl⟩

/-! ## Waiting for the status (R242) -/

theorem Phase.ownsBus_of_inTransfer {ph : Phase} (h : ph.inTransfer = true) : ph.ownsBus = true := by
  cases ph with
  | idle | busAcquired | closed => cases h
  | addressPhaseSent | dataPhaseReceived | dataPhaseSent => rfl

/-- The block is polling for the status of a transfer. -/
structure Transferring (s : State) : Prop where
  busy : s.bsy = true
  phase : s.ph.inTransfer = true

/-- What a transfer without a status keeps: the command in flight and `LST`; and it gives no result. -/
structure StatusPending (s t : State) : Prop where
  held : Held s t
  lst : t.lst = s.lst
  res : t.res = none

theorem StatusPending.trans {s u t : State} (h : StatusPending s u) (k : StatusPending u t) : StatusPending s t :=
  ⟨h.held.trans k.held, k.lst.trans h.lst, k.res⟩

/-- Whatever happens in a transfer uses up one move and leaves the command in flight alone. -/
theorem transfer_held (s : State) : (transfer s).env = s.env.next ∧ Held s (transfer s) := by
  rcases transfer_cases s with ⟨_, h⟩ | ⟨-, -, h⟩ | ⟨-, -, h⟩ | ⟨_, -, -, -, h⟩ | ⟨-, -, h⟩ | ⟨_, -, -, h⟩ <;> rw [h] <;>
    exact ⟨rfl, rfl, rfl, rfl, rfl, rfl, rfl, rfl⟩

/-- Only a non-busy status takes a transfer out of its three phases or writes `LST` (R136, R137). -/
theorem transfer_without_status {s : State} (hp : s.ph.inTransfer = true)
    (hm : ∀ m, s.env.move = some m → m.keepsTransferring) :
    (transfer s).ph.inTransfer = true ∧ (transfer s).lst = s.lst := by
  rcases transfer_cases s with ⟨_, h⟩ | ⟨-, -, h⟩ | ⟨-, -, h⟩ | ⟨_, -, -, -, h⟩ | ⟨-, -, h⟩ | ⟨st, he, hst, -⟩
  case inr.inr.inr.inr.inr => exact absurd (hm (.status st) he) hst
  case inr.inl | inr.inr.inl =>
    rw [h]
    exact ⟨rfl, rfl⟩
  all_goals
    rw [h]
    exact ⟨hp, rfl⟩

theorem step_without_status {s : State} (h : Transferring s) (hm : ∀ m, s.env.move = some m → m.keepsTransferring) :
    ∃ u, step s = .next u ∧ u.env = s.env.next ∧ Transferring u ∧ StatusPending s u := by
  rcases busyStep_cases s with ⟨d, r, b, -, hs⟩ | ⟨he, -⟩ | ⟨hn, -⟩
  · exact ⟨_, (step_busy h.busy).trans (congrArg _ hs), rfl, ⟨h.busy, h.phase⟩, ⟨rfl, rfl, rfl, rfl, rfl, rfl, rfl⟩,
      rfl, rfl⟩
  · exact (hm .reset he).elim
  · obtain ⟨henv, hheld⟩ := transfer_held s
    obtain ⟨hph, hlst⟩ := transfer_without_status h.phase hm
    exact ⟨_, step_transfer h.busy h.phase hn, henv, ⟨hheld.bsy.trans h.busy, hph⟩, hheld, hlst, transfer_res s⟩

theorem step_busy_poll {s : State} (h : Transferring s)
    (hm : ∀ m, s.env.move = some m → m = .status Config.stBusy) :
    step s = .next (s.pop.say [.tClose Config.stBusy]) := by
  have hn : NoMoveBefore s.env := fun m he => hm m he ▸ rfl
  rw [step_transfer h.busy h.phase hn, transfer]
  cases he : s.env.move with
  | none => rfl
  | some m =>
    cases hm m he
    exact congrArg _ (closeCall_busy s.pop)

theorem run_without_status {s : State} (n : Nat) (h : Transferring s) (he : s.env.Always EnvMove.keepsTransferring) :
    ∃ t, Reaches (n + 1) s t ∧ t.env = s.env.drop (n + 1) ∧ Transferring t ∧ StatusPending s t :=
  endless_run (kept := StatusPending) (fun _ _ _ => .trans) (fun _ => step_without_status) n h he

theorem run_busy_polls {s : State} (n : Nat) (h : Transferring s)
    (he : s.env.Always fun m => m = .status Config.stBusy) :
    ∃ t, Reaches (n + 1) s t ∧ t.env = s.env.drop (n + 1) ∧ Transferring t ∧ OnlyPolled (.tClose Config.stBusy) s t :=
  endless_run (kept := OnlyPolled (.tClose Config.stBusy)) (fun _ _ _ => .trans)
    (fun _ hu hm => ⟨_, step_busy_poll hu hm, rfl, ⟨hu.busy, hu.phase⟩, rfl⟩) n h he

/-- Settles O44: without a status each step leaves the block in the transfer, where it owns the bus; when all moves are
busy answers the same run only polls. -/
theorem hangAtCompletion : Obligations.HangAtCompletion := by
  intro s n hb hp he
  have h : Transferring s := ⟨hb, hp⟩
  obtain ⟨t, ht, hte, htg, hheld, hlst, hres⟩ := run_without_status n h he
  refine ⟨t, ht, (cmdReady_false_iff t).mpr htg.busy, by simp [State.resValid, hres],
    Phase.ownsBus_of_inTransfer htg.phase, htg.phase, hheld.att, hheld.opc, hlst, fun hr => ?_⟩
  obtain ⟨t', ht', -, -, hpoll⟩ := run_busy_polls n h hr
  rw [← hte, ht.unique ht']
  exact hpoll

end Sys2Proof.Machine

/-! PROOF. Encoding (30_encoding): the decoder undoes the encoder, the decoded word is the encoder's, and what the decoder
refuses is what R91 calls illegal. -/

namespace Sys2Proof.Machine

/-! ## Reading the fields of a written word (R81) -/

theorem accFields_formatA (op : BitVec 4) (scale : Scale) (res : Resolution) {odr : Odr} (h : odrMember odr = true) :
    accFields (formatA op scale res odr) = some (scale, res, odr) := by
  have hw := formatA_toNat op scale res odr
  have := odr.isLt
  have := scale.ordinal.isLt
  have := res.ordinal.isLt
  refine accFields_eq_some.mpr ⟨BitVec.eq_of_toNat_eq ?_, BitVec.eq_of_toNat_eq ?_, BitVec.eq_of_toNat_eq ?_, h⟩
  · rw [fieldScale_toNat, hw]
    omega
  · rw [fieldRes_toNat, hw]
    omega
  · rw [fieldOdr_toNat, hw]
    omega

theorem magFields_formatM (op : BitVec 4) (mode : MagMode) (modr : MagOdr) :
    magFields (formatM op mode modr) = some (mode, modr) := by
  have hw := formatM_toNat op mode modr
  have := modr.isLt
  have := mode.ordinal.isLt
  refine magFields_eq_some.mpr ⟨BitVec.eq_of_toNat_eq ?_, BitVec.eq_of_toNat_eq ?_⟩
  · rw [fieldMode_toNat, hw]
    omega
  · rw [fieldModr_toNat, hw]
    omega

theorem fields_formatT (op : BitVec 4) (dev reg val : Byte) :
    fieldDev (formatT op dev reg val) = dev ∧ fieldReg (formatT op dev reg val) = reg ∧
      fieldVal (formatT op dev reg val) = val := by
  have hw := formatT_toNat op dev reg val
  have := dev.isLt
  have := reg.isLt
  have := val.isLt
  refine ⟨BitVec.eq_of_toNat_eq ?_, BitVec.eq_of_toNat_eq ?_, BitVec.eq_of_toNat_eq ?_⟩
  · rw [fieldDev_toNat, hw]
    omega
  · rw [fieldReg_toNat, hw]
    omega
  · rw [fieldVal_toNat, hw]
    omega

/-! ## Decoding an encoded command -/

/-- R84: the word of any command has the opcode and the fixed bits of its row. -/
theorem fixedBits_encode (i : Instr) : Laws.FixedBits.Statement i := by
  cases i with
  | enca scale res odr => exact Laws.FixedBits.enca scale res odr
  | encm mode modr => exact Laws.FixedBits.encm mode modr
  | wr dev reg val => exact Laws.FixedBits.wr dev reg val
  | rd dev reg => exact Laws.FixedBits.rd dev reg
  | cfga scale res odr => exact Laws.FixedBits.cfga scale res odr
  | cfgm mode modr => exact Laws.FixedBits.cfgm mode modr

theorem operandsOf_encode {i : Instr} (h : WellFormed i = true) : operandsOf (opcodeOf i) (encode i) = some i := by
  cases i with
  | enca scale res odr | cfga scale res odr => simp [opcodeOf, operandsOf, encode, accFields_formatA _ scale res h]
  | encm mode modr | cfgm mode modr => simp [opcodeOf, operandsOf, encode, magFields_formatM]
  | wr dev reg val => simp [opcodeOf, operandsOf, encode, fields_formatT]
  | rd dev reg => simp [opcodeOf, operandsOf, encode, fields_formatT]

theorem decode_encode {i : Instr} (h : WellFormed i = true) : decode (encode i) = .ok i := by
  obtain ⟨hop, hmask⟩ := fixedBits_encode i
  exact decode_eq_ok.mpr ⟨opcodeOf i, hop, hmask, operandsOf_encode h⟩

/-- Settles O1: the word has the fixed bits of its row, and each field reads back as its operand. -/
theorem decodeEncodeRoundTrip : Obligations.DecodeEncodeRoundTrip := fun _ => decode_encode

/-! ## Encoding a decoded word -/

/-- Format A has no bits beyond the opcode, the zero field and the three operands. -/
theorem formatA_eq_of_fields {w : Word32} {op : BitVec 4} {f : Scale × Resolution × Odr} (hf : accFields w = some f)
    (hw : w.toNat / 2 ^ 8 = op.toNat * 2 ^ 20) : formatA op f.1 f.2.1 f.2.2 = w := by
  obtain ⟨hscale, hres, hodr, -⟩ := accFields_eq_some.mp hf
  refine BitVec.eq_of_toNat_eq ?_
  rw [formatA_toNat, hscale, hres, hodr, fieldScale_toNat, fieldRes_toNat, fieldOdr_toNat]
  omega

theorem formatM_eq_of_fields {w : Word32} {op : BitVec 4} {f : MagMode × MagOdr} (hf : magFields w = some f)
    (hw : w.toNat / 2 ^ 4 = op.toNat * 2 ^ 24) : formatM op f.1 f.2 = w := by
  obtain ⟨hmode, hmodr⟩ := magFields_eq_some.mp hf
  refine BitVec.eq_of_toNat_eq ?_
  rw [formatM_toNat, hmode, hmodr, fieldMode_toNat, fieldModr_toNat]
  omega

theorem formatT_eq_of_fields {w : Word32} {op : BitVec 4} {val : Byte} (hval : val.toNat = w.toNat % 2 ^ 8)
    (hw : w.toNat / 2 ^ 24 = op.toNat * 2 ^ 4) : formatT op (fieldDev w) (fieldReg w) val = w := by
  refine BitVec.eq_of_toNat_eq ?_
  rw [formatT_toNat, hval, fieldDev_toNat, fieldReg_toNat]
  omega

/-- R85 step 3: the rate of decoded format A operands is a member. -/
theorem odrMember_of_accFields {w : Word32} {f : Scale × Resolution × Odr} (hf : accFields w = some f) :
    odrMember f.2.2 = true := by
  obtain ⟨-, -, -, hm⟩ := accFields_eq_some.mp hf
  exact hm

/-- R85: the operands of a row, read from a word with its fixed bits, spell a well-formed command of that word. -/
theorem encode_operandsOf {o : Opcode} {w : Word32} {i : Instr} (hbits : fixedBits o w.toNat)
    (h : operandsOf o w = some i) : encode i = w ∧ WellFormed i = true := by
  cases o with
  | enca | cfga =>
    obtain ⟨f, hf, rfl⟩ := Option.map_eq_some_iff.mp h
    exact ⟨formatA_eq_of_fields hf hbits, odrMember_of_accFields hf⟩
  | encm | cfgm =>
    obtain ⟨f, hf, rfl⟩ := Option.map_eq_some_iff.mp h
    exact ⟨formatM_eq_of_fields hf hbits, rfl⟩
  | wr =>
    cases h
    exact ⟨formatT_eq_of_fields (fieldVal_toNat w) hbits, rfl⟩
  | rd =>
    cases h
    obtain ⟨hhigh, hlow⟩ := hbits
    exact ⟨formatT_eq_of_fields hlow.symm hhigh, rfl⟩

/-- Settles O2: the fixed bits and the operands of a decoded word are all of its bits. -/
theorem encodeDecodeRoundTrip : Obligations.EncodeDecodeRoundTrip := by
  intro w i h
  obtain ⟨o, -, hmask, hoperands⟩ := decode_eq_ok.mp h
  exact encode_operandsOf ((mask_eq_pattern o w).mp hmask) hoperands

/-! ## The refused words (R91) -/

/-- R85: the three steps at which a word is refused. -/
theorem decode_error_cases {w : Word32} {e : DecodeError} (h : decode w = .error e) :
    Opcode.ofBits (fieldOp w) = none ∨
      ∃ o, fieldOp w = o.row.op ∧ (¬ fixedBits o w.toNat ∨ fixedBits o w.toNat ∧ operandsOf o w = none) := by
  unfold decode at h
  split at h
  · exact .inl ‹_›
  · rename_i o ho
    refine .inr ⟨o, Opcode.op_of_ofBits ho, ?_⟩
    rw [← mask_eq_pattern]
    split at h
    · split at h
      · cases h
      · exact .inr ⟨‹_›, ‹_›⟩
    · exact .inl ‹_›

theorem accFields_eq_none {w : Word32} (h : accFields w = none) :
    11 ≤ w.toNat / 2 ^ 4 % 2 ^ 4 ∨ w.toNat % 4 = 3 := by
  unfold accFields at h
  split at h
  · split at h
    · cases h
    · rename_i hodr
      rw [odrMember_iff, fieldOdr_toNat] at hodr
      exact .inl (Nat.lt_of_not_le hodr)
  · rename_i hres
    rw [Resolution.ofOrdinal_eq_none, fieldRes_toNat] at hres
    exact .inr hres

theorem magFields_eq_none {w : Word32} (h : magFields w = none) : w.toNat % 4 = 3 := by
  unfold magFields at h
  split at h
  · cases h
  · rename_i hmode
    rwa [MagMode.ofOrdinal_eq_none, fieldMode_toNat] at hmode

/-- R91: with the opcode of its row, a word outside the row's fixed bits has a zero field that is not zero. -/
theorem illegalWord_of_not_fixedBits {w : Word32} {o : Opcode} (hop : fieldOp w = o.row.op)
    (h : ¬ fixedBits o w.toNat) : IllegalWord w := by
  have hop : w.toNat / 2 ^ 28 = o.row.op.toNat := by rw [← fieldOp_toNat, hop]
  unfold IllegalWord
  cases o <;> simp [fixedBits, Opcode.row] at h hop <;> omega

/-- R91: with the opcode of its row, a word without operands has a field that is no member of its enumeration. -/
theorem illegalWord_of_no_operands {w : Word32} {o : Opcode} (hop : fieldOp w = o.row.op)
    (h : operandsOf o w = none) : IllegalWord w := by
  have hop : w.toNat / 2 ^ 28 = o.row.op.toNat := by rw [← fieldOp_toNat, hop]
  unfold IllegalWord
  cases o with
  | enca =>
    have := accFields_eq_none (Option.map_eq_none_iff.mp h)
    exact .inr (.inr (.inl ⟨.inl hop, .inr this⟩))
  | cfga =>
    have := accFields_eq_none (Option.map_eq_none_iff.mp h)
    exact .inr (.inr (.inl ⟨.inr hop, .inr this⟩))
  | encm =>
    have := magFields_eq_none (Option.map_eq_none_iff.mp h)
    exact .inr (.inr (.inr (.inl ⟨.inl hop, .inr this⟩)))
  | cfgm =>
    have := magFields_eq_none (Option.map_eq_none_iff.mp h)
    exact .inr (.inr (.inr (.inl ⟨.inr hop, .inr this⟩)))
  | wr | rd => cases h

theorem illegalWord_of_decode_error {w : Word32} {e : DecodeError} (h : decode w = .error e) : IllegalWord w := by
  rcases decode_error_cases h with hop | ⟨o, hop, hbits | ⟨-, hoperands⟩⟩
  · rw [Opcode.ofBits_eq_none, fieldOp_toNat] at hop
    exact hop.imp_right .inl
  · exact illegalWord_of_not_fixedBits hop hbits
  · exact illegalWord_of_no_operands hop hoperands

/-- Settles O3: each step of the decoder refuses for a clause of R91, and each clause is refused; a rate that is a member
decodes with every resolution. -/
theorem refusedWordsAreTheIllegalWords : Obligations.RefusedWordsAreTheIllegalWords := by
  refine ⟨fun w => ⟨fun ⟨_, h⟩ => illegalWord_of_decode_error h, decode_error_of_illegalWord⟩,
    fun scale res odr hm _ => ?_⟩
  have hm := (odrMember_iff odr).mpr hm
  exact ⟨decode_encode (i := .enca scale res odr) hm, decode_encode (i := .cfga scale res odr) hm⟩

/-! ## The written form (R93) -/

theorem packWord_eq_some {op : Nat} {fields : List (Nat × Nat × Nat)} {w : Word32}
    (hfit : ∀ f ∈ fields, f.1 < 2 ^ f.2.1)
    (hw : op * 2 ^ 28 + (fields.map fun f => f.1 * 2 ^ f.2.2).sum = w.toNat) : packWord op fields = some w := by
  have hall : (fields.all fun f => decide (f.1 < 2 ^ f.2.1)) = true :=
    List.all_eq_true.mpr fun f hf => decide_eq_true (hfit f hf)
  rw [packWord, if_pos hall, hw, BitVec.ofNat_toNat, BitVec.setWidth_eq]

theorem packWord_formatA (op : BitVec 4) (scale : Scale) (res : Resolution) (odr : Odr) :
    packWord op.toNat [(odr.toNat, 4, 4), (scale.ordinal.toNat, 2, 2), (res.ordinal.toNat, 2, 0)] =
      some (formatA op scale res odr) := by
  refine packWord_eq_some ?_ ?_
  · simp only [List.forall_mem_cons]
    exact ⟨odr.isLt, scale.ordinal.isLt, res.ordinal.isLt, nofun⟩
  · simp only [formatA_toNat, List.map_cons, List.map_nil, List.sum_cons, List.sum_nil]
    omega

theorem packWord_formatM (op : BitVec 4) (mode : MagMode) (modr : MagOdr) :
    packWord op.toNat [(modr.toNat, 2, 2), (mode.ordinal.toNat, 2, 0)] = some (formatM op mode modr) := by
  refine packWord_eq_some ?_ ?_
  · simp only [List.forall_mem_cons]
    exact ⟨modr.isLt, mode.ordinal.isLt, nofun⟩
  · simp only [formatM_toNat, List.map_cons, List.map_nil, List.sum_cons, List.sum_nil]
    omega

theorem packWord_formatT (op : BitVec 4) (dev reg val : Byte) :
    packWord op.toNat [(dev.toNat, 8, 16), (reg.toNat, 8, 8), (val.toNat, 8, 0)] = some (formatT op dev reg val) := by
  refine packWord_eq_some ?_ ?_
  · simp only [List.forall_mem_cons]
    exact ⟨dev.isLt, reg.isLt, val.isLt, nofun⟩
  · simp only [formatT_toNat, List.map_cons, List.map_nil, List.sum_cons, List.sum_nil]
    omega

/-- R84: a read has no value field; its low byte is a zero field. -/
theorem packWord_formatT_zero (op : BitVec 4) (dev reg : Byte) :
    packWord op.toNat [(dev.toNat, 8, 16), (reg.toNat, 8, 8)] = some (formatT op dev reg 0) := by
  refine packWord_eq_some ?_ ?_
  · simp only [List.forall_mem_cons]
    exact ⟨dev.isLt, reg.isLt, nofun⟩
  · simp only [formatT_toNat, List.map_cons, List.map_nil, List.sum_cons, List.sum_nil, BitVec.ofNat_eq_ofNat,
      BitVec.toNat_ofNat]
    omega

/-- Settles O4: the fields of each row fit, and their sum is the word of the row's format. -/
theorem assemblerAgreesWithEncoder : Obligations.AssemblerAgreesWithEncoder := by
  intro i
  cases i with
  | enca scale res odr => exact packWord_formatA 0x1 scale res odr
  | encm mode modr => exact packWord_formatM 0x2 mode modr
  | wr dev reg val => exact packWord_formatT 0x3 dev reg val
  | rd dev reg => exact packWord_formatT_zero 0x4 dev reg
  | cfga scale res odr => exact packWord_formatA 0x5 scale res odr
  | cfgm mode modr => exact packWord_formatM 0x6 mode modr

/-! ## Rows of the table (R84) -/

/-- The fixed bits of a row include its opcode. -/
theorem op_of_fixedBits {o : Opcode} {n : Nat} (h : fixedBits o n) : n / 2 ^ 28 = o.row.op.toNat := by
  cases o <;> simp only [fixedBits] at h <;> simp only [Opcode.row, BitVec.ofNat_eq_ofNat, BitVec.toNat_ofNat] <;> omega

theorem Opcode.row_op_injective {a b : Opcode} (h : a.row.op = b.row.op) : a = b := by
  have := congrArg Opcode.ofBits h
  rwa [Opcode.ofBits_op, Opcode.ofBits_op, Option.some.injEq] at this

/-- Settles O5: both rows have the opcode field of the word, and no two rows have the same opcode. -/
theorem opcodeRowsAreDisjoint : Obligations.OpcodeRowsAreDisjoint := by
  intro w a b ha hb
  have ha := op_of_fixedBits ((mask_eq_pattern a w).mp ha)
  have hb := op_of_fixedBits ((mask_eq_pattern b w).mp hb)
  exact Opcode.row_op_injective (BitVec.eq_of_toNat_eq (ha.symm.trans hb))

/-- Settles O6: nine words, decoded. -/
theorem sampleWordsDecode : Obligations.SampleWordsDecode := by
  unfold Obligations.SampleWordsDecode
  decide

end Sys2Proof.Machine

/-! PROOF. Two runs side by side. The branch a step takes depends on few fields of the state; in each branch the step is a
straight-line update. So two states that agree in those fields take the same branch, and a relation between states is kept
by a step when every branch keeps it (43_configure R174, 10_state R42, R21). -/

namespace Sys2Proof.Machine

/-! ## The branches of a step -/

/-- The branches of a step, with what the environment or the host puts into it. -/
inductive Branch where
  | cellChanges (dev reg b : Byte)
  | resetAll
  | resetBlock
  | waits
  | answers (r : Result)
  | acceptsWrite (op : BitVec 4) (dev reg val : Byte)
  | acceptsRead (dev reg : Byte)
  | opens (granted : Bool)
  | armsAddress
  | installsHandler (h : CompletionHandler)
  | installsNack
  | starts
  | polls (items : List PortItem)
  | completes (ph : Phase) (signal : Signal)
  | deposits (b : Byte)
  | stores
  | closes (st : Status)
  | endsWrite
  | endsCleanRead
  | endsExhaustedRead
  | retriesRead

/-- The update of a branch. -/
def Branch.run : Branch → State → State
  | .cellChanges dev reg b, s => Machine.cellChanges dev reg b s.pop
  | .resetAll, s => s.pop.resetAll
  | .resetBlock, s => s.pop.resetBlock
  | .waits, s => s.say []
  | .answers r, s => s.emit r
  | .acceptsWrite op dev reg val, s => s.acceptWrite op dev reg val
  | .acceptsRead dev reg, s => (s.accept 0x4#4 Config.rdAttempts dev reg).drawDbuf
  | .opens granted, s => openCall granted s.pop
  | .armsAddress, s => setBuf s
  | .installsHandler h, s => { s.say [.tSetcb h .dbuf] with cbh := h }
  | .installsNack, s => setNack s
  | .starts, s => start s
  | .polls items, s => s.pop.say items
  | .completes ph signal, s => handlerFires ph signal s.pop
  | .deposits b, s => { s.pop.say [.deposit b] with dbuf := b, deposited := true }
  | .stores, s => { s.pop.say [] with mem := s.mem.write (target s) s.dbuf }
  | .closes st, s =>
    { s.pop.say [.tClose st] with lst := st, ph := .closed, cbh := .none, nah := .none, armed := none }
  | .endsWrite, s => (attemptEnds s).finishWith (.done s.lst 0)
  | .endsCleanRead, s => { (attemptEnds s).finishWith (.done s.lst s.dbuf) with att := 0 }
  | .endsExhaustedRead, s =>
    { (attemptEnds s).finishWith (.done s.lst (Config.any8 s.draws)) with draws := s.draws + 1 }
  | .retriesRead, s => (attemptEnds s).drawDbuf

/-- When a branch can be taken, as far as the relations below need it. -/
def Branch.Enabled (s : State) : Branch → Prop
  | .cellChanges _ _ _ | .resetAll | .resetBlock | .waits | .answers _ | .acceptsWrite _ _ _ _ | .acceptsRead _ _ => True
  | .completes ph _ => s.bsy = true ∧ ph ≠ .closed
  | .endsWrite | .endsCleanRead | .endsExhaustedRead | .retriesRead => s.bsy = true ∧ s.ph = .closed
  | _ => s.bsy = true

/-- Equal in all that decides which branch a step takes. -/
structure SameControl (s t : State) : Prop where
  bsy : t.bsy = s.bsy
  host : t.host = s.host
  env : t.env = s.env
  ph : t.ph = s.ph
  att : t.att = s.att
  cbh : t.cbh = s.cbh
  nah : t.nah = s.nah
  armed : t.armed = s.armed
  deposited : t.deposited = s.deposited
  isRead : s.bsy = true → t.isRead = s.isRead
  clean : s.ph = .closed → (t.lst = Config.stNoErr ↔ s.lst = Config.stNoErr)

/-- Two states take a branch by their updates `f s` and `f t`. -/
def SameBranch (s t s' t' : State) : Prop := ∃ b : Branch, b.Enabled s ∧ s' = b.run s ∧ t' = b.run t

/-- A poll closes the attempt or not by its answer alone. -/
theorem closeCall_branch {s : State} (t : State) (st : Status) (hb : s.bsy = true) :
    SameBranch s t (closeCall st s.pop) (closeCall st t.pop) := by
  unfold Machine.closeCall
  split
  · exact ⟨.polls _, hb, rfl, rfl⟩
  · exact ⟨.closes st, hb, rfl, rfl⟩

section SameControl

variable {s t : State} (h : SameControl s t)

include h

theorem SameControl.popHost : SameControl s.popHost t.popHost :=
  ⟨h.bsy, congrArg List.tail h.host, h.env, h.ph, h.att, h.cbh, h.nah, h.armed, h.deposited, h.isRead, h.clean⟩

theorem SameControl.cmdWord : t.cmdWord = s.cmdWord := by rw [State.cmdWord, State.cmdWord, h.host]

theorem SameControl.acquire (hb : s.bsy = true) : SameBranch s t (acquire s) (acquire t) :=
  ⟨.opens (openAnswer s.env.move), hb, rfl, by rw [Machine.acquire, h.env]; rfl⟩

theorem SameControl.setUp (hb : s.bsy = true) : SameBranch s t (setUp s) (setUp t) := by
  have hst : stageHandler t = stageHandler s := by rw [stageHandler, stageHandler, h.isRead hb]
  unfold Machine.setUp
  rw [h.armed, h.cbh, h.nah]
  split
  · exact ⟨.armsAddress, hb, rfl, rfl⟩
  · split
    · exact ⟨.installsHandler (stageHandler s), hb, rfl, by rw [← hst]; rfl⟩
    · split
      · exact ⟨.installsNack, hb, rfl, rfl⟩
      · exact ⟨.starts, hb, rfl, rfl⟩

theorem SameControl.onComplete (hb : s.bsy = true) : SameBranch s t (onComplete s.pop) (onComplete t.pop) := by
  unfold Machine.onComplete
  rw [State.pop_cbh, State.pop_cbh, h.cbh]
  cases s.cbh with
  | none => exact ⟨.polls _, hb, rfl, rfl⟩
  | wrStage => exact ⟨.completes .dataPhaseSent .continueWrite, ⟨hb, nofun⟩, rfl, rfl⟩
  | rdStage => exact ⟨.completes .dataPhaseReceived .restartRead, ⟨hb, nofun⟩, rfl, rfl⟩

theorem SameControl.onAddrNack (hb : s.bsy = true) : SameBranch s t (onAddrNack s.pop) (onAddrNack t.pop) := by
  unfold Machine.onAddrNack
  rw [State.pop_nah, State.pop_nah, h.nah]
  split
  · exact ⟨.polls _, hb, rfl, rfl⟩
  · exact ⟨.polls _, hb, rfl, rfl⟩

theorem SameControl.onDeposit (b : Byte) (hb : s.bsy = true) :
    SameBranch s t (onDeposit b s.pop) (onDeposit b t.pop) := by
  have hd : depositAllowed t.pop = depositAllowed s.pop := by
    show (decide (t.ph = .dataPhaseReceived) && !t.deposited) = _
    rw [h.ph, h.deposited]
    rfl
  unfold Machine.onDeposit
  rw [hd]
  split
  · exact ⟨.deposits b, hb, rfl, rfl⟩
  · exact ⟨.polls _, hb, rfl, rfl⟩

theorem SameControl.onStore (hb : s.bsy = true) : SameBranch s t (onStore s.pop) (onStore t.pop) := by
  unfold Machine.onStore
  rw [State.pop_ph, State.pop_ph, h.ph]
  split
  · exact ⟨.stores, hb, rfl, rfl⟩
  · exact ⟨.polls _, hb, rfl, rfl⟩

theorem SameControl.transfer (hb : s.bsy = true) : SameBranch s t (transfer s) (transfer t) := by
  unfold Machine.transfer
  rw [h.env]
  split
  · exact h.onComplete hb
  · exact h.onAddrNack hb
  · exact h.onDeposit _ hb
  · exact h.onStore hb
  · exact closeCall_branch t _ hb
  · exact ⟨.polls _, hb, rfl, rfl⟩

theorem SameControl.finish (hb : s.bsy = true) (hp : s.ph = .closed) : SameBranch s t (finish s) (finish t) := by
  unfold Machine.finish finishRead
  rw [h.isRead hb, h.att]
  simp only [h.clean hp]
  split
  · split
    · exact ⟨.endsCleanRead, ⟨hb, hp⟩, rfl, rfl⟩
    · split
      · exact ⟨.endsExhaustedRead, ⟨hb, hp⟩, rfl, rfl⟩
      · exact ⟨.retriesRead, ⟨hb, hp⟩, rfl, rfl⟩
  · exact ⟨.endsWrite, ⟨hb, hp⟩, rfl, rfl⟩

theorem SameControl.attemptStep (hb : s.bsy = true) : SameBranch s t (attemptStep s) (attemptStep t) := by
  unfold Machine.attemptStep
  rw [h.ph]
  cases hp : s.ph with
  | idle => exact h.acquire hb
  | busAcquired => exact h.setUp hb
  | addressPhaseSent | dataPhaseReceived | dataPhaseSent => exact h.transfer hb
  | closed => exact h.finish hb hp

theorem SameControl.busyStep (hb : s.bsy = true) : SameBranch s t (busyStep s) (busyStep t) := by
  unfold Machine.busyStep
  rw [h.env]
  cases s.env.move with
  | none => exact h.attemptStep hb
  | some m =>
    cases m with
    | cell dev reg b => exact ⟨.cellChanges dev reg b, trivial, rfl, rfl⟩
    | reset => exact ⟨.resetAll, trivial, rfl, rfl⟩
    | _ => exact h.attemptStep hb

theorem SameControl.idleStep : SameBranch s t (idleStep s) (idleStep t) := by
  unfold Machine.idleStep
  rw [h.env]
  cases s.env.move with
  | none => exact ⟨.waits, trivial, rfl, rfl⟩
  | some m =>
    cases m with
    | cell dev reg b => exact ⟨.cellChanges dev reg b, trivial, rfl, rfl⟩
    | reset => exact ⟨.resetBlock, trivial, rfl, rfl⟩
    | _ => exact ⟨.waits, trivial, rfl, rfl⟩

end SameControl

/-- ENCA and ENCM answer by their operands alone. -/
theorem exec_encoder {i : Instr} (h : (∃ scale res odr, i = .enca scale res odr) ∨ ∃ mode modr, i = .encm mode modr) :
    ∃ r, ∀ s, exec i s = .next (s.emit r) := by
  rcases h with ⟨scale, res, odr, rfl⟩ | ⟨mode, modr, rfl⟩
  · simp only [exec, execEnca, raiseError]
    split
    · split
      · exact ⟨_, fun _ => rfl⟩
      · exact ⟨_, fun _ => rfl⟩
    · exact ⟨_, fun _ => rfl⟩
  · exact ⟨_, exec_encm mode modr⟩

/-- Acceptance looks at the command only. -/
theorem exec_branch (i : Instr) : ∃ b : Branch, ∀ s, b.Enabled s ∧ exec i s = .next (b.run s) := by
  cases i with
  | enca scale res odr =>
    obtain ⟨r, h⟩ := exec_encoder (.inl ⟨scale, res, odr, rfl⟩)
    exact ⟨.answers r, fun s => ⟨trivial, h s⟩⟩
  | cfga scale res odr =>
    simp only [exec, execCfga, raiseError]
    split
    · split
      · exact ⟨.acceptsWrite _ _ _ _, fun _ => ⟨trivial, rfl⟩⟩
      · exact ⟨.answers _, fun _ => ⟨trivial, rfl⟩⟩
    · exact ⟨.answers _, fun _ => ⟨trivial, rfl⟩⟩
  | encm mode modr => exact ⟨.answers _, fun _ => ⟨trivial, rfl⟩⟩
  | wr dev reg val => exact ⟨.acceptsWrite _ _ _ _, fun _ => ⟨trivial, rfl⟩⟩
  | rd dev reg => exact ⟨.acceptsRead _ _, fun _ => ⟨trivial, rfl⟩⟩
  | cfgm mode modr => exact ⟨.acceptsWrite _ _ _ _, fun _ => ⟨trivial, rfl⟩⟩

/-- The state as the branch of its step meets it: a ready block has used up the host's entry (R80). -/
def State.portLooked (s : State) : State := if s.bsy then s else s.popHost

theorem State.portLooked_busy {s : State} (hb : s.bsy = true) : s.portLooked = s := if_pos hb

theorem State.portLooked_ready {s : State} (hb : s.bsy = false) : s.portLooked = s.popHost :=
  if_neg (by rw [hb]; decide)

/-- Two states equal in what decides the branch step by the same branch. -/
theorem SameControl.step {s t : State} (h : SameControl s t) :
    ∃ b : Branch, b.Enabled s.portLooked ∧ step s = .next (b.run s.portLooked) ∧
      step t = .next (b.run t.portLooked) := by
  cases hb : s.bsy with
  | true =>
    have hbt := h.bsy.trans hb
    obtain ⟨b, he, hs, ht⟩ := h.busyStep hb
    rw [State.portLooked_busy hb, State.portLooked_busy hbt, step_busy hb, step_busy hbt]
    exact ⟨b, he, congrArg _ hs, congrArg _ ht⟩
  | false =>
    have hbt := h.bsy.trans hb
    rw [State.portLooked_ready hb, State.portLooked_ready hbt]
    cases hw : s.cmdWord with
    | none =>
      obtain ⟨b, he, hs, ht⟩ := h.popHost.idleStep
      rw [step_idle hb hw, step_idle hbt (h.cmdWord.trans hw)]
      exact ⟨b, he, congrArg _ hs, congrArg _ ht⟩
    | some w =>
      cases hd : decode w with
      | error e => exact ⟨.answers _, trivial, step_refuses hb hw hd, step_refuses hbt (h.cmdWord.trans hw) hd⟩
      | ok i =>
        obtain ⟨b, hexec⟩ := exec_branch i
        rw [step_accepts hb hw hd, step_accepts hbt (h.cmdWord.trans hw) hd]
        exact ⟨b, (hexec _).1, (hexec _).2, (hexec _).2⟩

/-! ## Runs of related states -/

/-- Two states whose steps lead to states related by `R`. -/
def StepsTogether (R : State → State → Prop) (s t : State) : Prop :=
  ∃ s' t', step s = .next s' ∧ step t = .next t' ∧ R s' t'

/-- A relation that steps keep, and under which the latest port items are equal, holds for any number of steps, with equal
port traces. -/
theorem run_together {R : State → State → Prop} (hport : ∀ s t, R s t → t.port = s.port)
    (hstep : ∀ s t, R s t → StepsTogether R s t) {s t : State} (h : R s t) (n : Nat) :
    ∃ s' t', Reaches n s s' ∧ Reaches n t t' ∧ R s' t' ∧ portTrace n s = portTrace n t := by
  induction n generalizing s t with
  | zero => exact ⟨s, t, .refl s, .refl t, h, rfl⟩
  | succ n ih =>
    obtain ⟨u, v, hu, hv, huv⟩ := hstep s t h
    obtain ⟨s', t', hs', ht', hst, htrace⟩ := ih huv
    exact ⟨s', t', .head hu hs', .head hv ht', hst, by rw [portTrace_succ hu, portTrace_succ hv, htrace, hport u v huv]⟩

/-! ## But for `OPC` (R174) -/

/-- Equal but for `OPC`, which in flight makes no difference. -/
structure OpcodeApart (s t : State) : Prop where
  same : SameButOpcode s t
  isRead : s.bsy = true → t.isRead = s.isRead

section OpcodeApart

variable {s t : State} (h : OpcodeApart s t)

include h

theorem OpcodeApart.port : t.port = s.port := by
  rw [h.same]

theorem OpcodeApart.control : SameControl s t := by
  obtain ⟨same, isRead⟩ := h
  unfold SameButOpcode at same
  generalize t.opc = op at same
  subst same
  exact ⟨rfl, rfl, rfl, rfl, rfl, rfl, rfl, rfl, rfl, isRead, fun _ => .rfl⟩

theorem OpcodeApart.portLooked : OpcodeApart s.portLooked t.portLooked := by
  unfold State.portLooked
  rw [h.control.bsy]
  split
  · exact h
  · obtain ⟨same, isRead⟩ := h
    exact ⟨congrArg State.popHost same, isRead⟩

/-- No branch reads `OPC`: acceptance and reset write it, the end of a command makes it idle. -/
theorem OpcodeApart.run (b : Branch) : OpcodeApart (b.run s) (b.run t) := by
  obtain ⟨same, isRead⟩ := h
  unfold SameButOpcode at same
  generalize t.opc = op at same
  subst same
  cases b with
  | acceptsWrite | acceptsRead => exact ⟨rfl, fun _ => rfl⟩
  | resetAll | resetBlock | endsWrite | endsCleanRead | endsExhaustedRead => exact ⟨rfl, nofun⟩
  | _ => exact ⟨rfl, isRead⟩

theorem OpcodeApart.step : StepsTogether OpcodeApart s t := by
  obtain ⟨b, -, hs, ht⟩ := h.control.step
  exact ⟨_, _, hs, ht, h.portLooked.run b⟩

end OpcodeApart

theorem exec_cfga_valid (scale : Scale) {res : Resolution} {odr : Odr} (s : State) (hm : odr.toNat ≤ 10)
    (hv : validAcc res odr = true) :
    exec (.cfga scale res odr) s = .next (s.acceptWrite 0x5#4 accTarget.1 accTarget.2 (encAcc scale res odr)) := by
  simp [exec, execCfga, (odrMember_iff odr).mpr hm, hv]

theorem exec_wr (dev reg val : Byte) (s : State) :
    exec (.wr dev reg val) s = .next (s.acceptWrite 0x3#4 dev reg val) := rfl

/-- Two writes of one cell and byte, accepted in one state, are equal but for `OPC`. -/
theorem opcodeApart_acceptWrite {op op' : BitVec 4} (dev reg val : Byte) (s : State) (ho : op ≠ 0x4#4)
    (ho' : op' ≠ 0x4#4) : OpcodeApart (s.acceptWrite op dev reg val) (s.acceptWrite op' dev reg val) := by
  refine ⟨rfl, fun _ => ?_⟩
  rw [(isRead_false_iff (s.acceptWrite op dev reg val)).mpr ho, (isRead_false_iff (s.acceptWrite op' dev reg val)).mpr ho']

/-- Settles O42: acceptance leaves the two runs equal but for `OPC`, and no step tells CFGA's or CFGM's from WR's. -/
theorem configureIsAWrite : Obligations.ConfigureIsAWrite := by
  have together : ∀ u v, OpcodeApart u v → ∀ n, ∃ u' v', Reaches n u u' ∧ Reaches n v v' ∧ SameButOpcode u' v' ∧
      portTrace n u = portTrace n v := by
    intro u v huv n
    obtain ⟨u', v', hu, hv, hsame, htrace⟩ := run_together (fun _ _ h => h.port) (fun _ _ h => h.step) huv n
    exact ⟨u', v', hu, hv, hsame.same, htrace⟩
  rintro i j s (⟨scale, res, odr, hm, hv, rfl, rfl⟩ | ⟨mode, modr, rfl, rfl⟩) - -
  · exact ⟨_, _, exec_cfga_valid scale s hm hv, exec_wr _ _ _ s,
      together _ _ (opcodeApart_acceptWrite _ _ _ s (by decide) (by decide))⟩
  · exact ⟨_, _, exec_cfgm mode modr s, exec_wr _ _ _ s,
      together _ _ (opcodeApart_acceptWrite _ _ _ s (by decide) (by decide))⟩

/-! ## But for what reset leaves unspecified (R42) -/

/-- Equal but for `DEV`, `ABUF`, `DBUF`, `LST` and `OPC`, of which acceptance writes all but `LST`, and the poll that ends
the attempt writes `LST`. -/
structure UnspecifiedApart (s t : State) : Prop where
  same : SameButUnspecified s t
  inFlight : s.bsy = true → t.dev = s.dev ∧ t.abuf = s.abuf ∧ t.dbuf = s.dbuf ∧ t.opc = s.opc
  closed : s.ph = .closed → t.lst = s.lst

section UnspecifiedApart

variable {s t : State} (h : UnspecifiedApart s t)

include h

theorem UnspecifiedApart.outside : SameOutside s t := by
  rw [h.same]
  exact ⟨rfl, rfl, rfl, rfl, rfl, rfl, rfl, rfl, rfl, rfl⟩

theorem UnspecifiedApart.port : t.port = s.port := by
  rw [h.same]

theorem UnspecifiedApart.control : SameControl s t := by
  obtain ⟨same, inFlight, closed⟩ := h
  unfold SameButUnspecified at same
  generalize t.dev = dev, t.abuf = abuf, t.dbuf = dbuf, t.lst = lst, t.opc = opc at same inFlight closed
  subst same
  refine ⟨rfl, rfl, rfl, rfl, rfl, rfl, rfl, rfl, rfl, fun hb => ?_, fun hp => closed hp ▸ .rfl⟩
  obtain ⟨-, -, -, rfl⟩ := inFlight hb
  rfl

theorem UnspecifiedApart.portLooked : UnspecifiedApart s.portLooked t.portLooked := by
  unfold State.portLooked
  rw [h.control.bsy]
  split
  · exact h
  · obtain ⟨same, inFlight, closed⟩ := h
    exact ⟨congrArg State.popHost same, inFlight, closed⟩

/-- In flight no branch but an end of the attempt reads a register of the five that acceptance has not written. -/
theorem UnspecifiedApart.run {b : Branch} (he : b.Enabled s) : UnspecifiedApart (b.run s) (b.run t) := by
  obtain ⟨same, inFlight, closed⟩ := h
  unfold SameButUnspecified at same
  generalize t.dev = dev, t.abuf = abuf, t.dbuf = dbuf, t.lst = lst, t.opc = opc at same inFlight closed
  subst same
  cases b with
  | cellChanges | waits | answers => exact ⟨rfl, inFlight, closed⟩
  | resetAll | resetBlock => exact ⟨rfl, nofun, nofun⟩
  | acceptsWrite | acceptsRead => exact ⟨rfl, fun _ => ⟨rfl, rfl, rfl, rfl⟩, closed⟩
  | opens granted =>
    obtain ⟨rfl, rfl, rfl, rfl⟩ := inFlight he
    cases granted with
    | false => exact ⟨rfl, inFlight, closed⟩
    | true => exact ⟨rfl, inFlight, nofun⟩
  | armsAddress | installsHandler | installsNack | polls | deposits | stores =>
    obtain ⟨rfl, rfl, rfl, rfl⟩ := inFlight he
    exact ⟨rfl, fun _ => ⟨rfl, rfl, rfl, rfl⟩, closed⟩
  | starts =>
    obtain ⟨rfl, rfl, rfl, rfl⟩ := inFlight he
    exact ⟨rfl, inFlight, nofun⟩
  | completes ph signal =>
    obtain ⟨hb, hp⟩ := he
    obtain ⟨rfl, rfl, rfl, rfl⟩ := inFlight hb
    exact ⟨rfl, inFlight, fun hc => absurd hc hp⟩
  | closes st =>
    obtain ⟨rfl, rfl, rfl, rfl⟩ := inFlight he
    exact ⟨rfl, inFlight, fun _ => rfl⟩
  | endsWrite | endsCleanRead | endsExhaustedRead | retriesRead =>
    obtain ⟨hb, hp⟩ := he
    obtain ⟨rfl, rfl, rfl, rfl⟩ := inFlight hb
    obtain rfl := closed hp
    exact ⟨rfl, fun _ => ⟨rfl, rfl, rfl, rfl⟩, nofun⟩

theorem UnspecifiedApart.step : StepsTogether UnspecifiedApart s t := by
  obtain ⟨b, he, hs, ht⟩ := h.control.step
  exact ⟨_, _, hs, ht, h.portLooked.run he⟩

end UnspecifiedApart

/-- Settles O51: a quiescent block is not in flight and not at `Closed`, and steps keep the five registers unread until
they are written. -/
theorem unspecifiedRegistersAreNeverRead : Obligations.UnspecifiedRegistersAreNeverRead := by
  intro s t _ ⟨hb, hp, _⟩ hsame n
  have h : UnspecifiedApart s t := ⟨hsame, fun h => by simp [hb] at h, fun h => by simp [hp] at h⟩
  obtain ⟨s', t', hs, ht, hst, htrace⟩ := run_together (fun _ _ h => h.port) (fun _ _ h => h.step) h n
  exact ⟨s', t', hs, ht, hst.outside, htrace⟩

/-! ## But for the address and the cells (R21, R51) -/

section SameButAddress

variable {s t : State} (h : SameButAddress s t)

include h

theorem SameButAddress.control : SameControl s t := by
  unfold SameButAddress at h
  generalize t.dev = dev, t.abuf = abuf, t.mem = mem, t.port = port at h
  subst h
  exact ⟨rfl, rfl, rfl, rfl, rfl, rfl, rfl, rfl, rfl, fun _ => rfl, fun _ => .rfl⟩

theorem SameButAddress.portLooked : SameButAddress s.portLooked t.portLooked := by
  unfold State.portLooked
  rw [h.control.bsy]
  split
  · exact h
  · exact congrArg State.popHost h

/-- An address only goes from a command to the port items and to the cell it names. -/
theorem SameButAddress.run (b : Branch) : SameButAddress (b.run s) (b.run t) := by
  unfold SameButAddress at h
  generalize t.dev = dev, t.abuf = abuf, t.mem = mem, t.port = port at h
  subst h
  cases b <;> rfl

end SameButAddress

/-- Settles O52: the two states step by the same branch, and every branch keeps them equal but for the address. -/
theorem addressesAreOpaque : Obligations.AddressesAreOpaque := by
  intro s t s' h hs
  obtain ⟨b, -, hs', ht'⟩ := h.control.step
  rw [hs'] at hs
  cases hs
  exact ⟨_, ht', h.portLooked.run b⟩

end Sys2Proof.Machine

/-! PROOF. What a step keeps: the command in flight is held until the step Finish, which alone answers; reset; and the
claims about every step of the machine (10_state R25, R32, R40; 30_encoding R86; 60_exceptions R206, R207). -/

namespace Sys2Proof.Machine

/-! ## A step in flight holds the command or is the step Finish -/

theorem acquire_held (s : State) : Held s (acquire s) := by
  rcases acquire_cases s with h | ⟨-, h⟩ <;> rw [h] <;> exact ⟨rfl, rfl, rfl, rfl, rfl, rfl, rfl⟩

theorem setUp_held (s : State) : Held s (setUp s) := by
  rcases setUp_cases s with ⟨-, h⟩ | ⟨-, -, h⟩ | ⟨-, -, -, h⟩ | ⟨-, -, -, h⟩ <;> rw [h] <;>
    exact ⟨rfl, rfl, rfl, rfl, rfl, rfl, rfl⟩

/-- R157: before `Closed` the block's turn holds the command in flight and gives no result. -/
theorem attemptStep_held {s : State} (hp : s.ph ≠ .closed) :
    Held s (attemptStep s) ∧ (attemptStep s).res = none := by
  rcases attemptStep_cases s with ⟨-, h⟩ | ⟨-, h⟩ | ⟨-, h⟩ | ⟨hc, -⟩
  · rw [h]
    exact ⟨acquire_held s, acquire_res s⟩
  · rw [h]
    exact ⟨setUp_held s, setUp_res s⟩
  · rw [h]
    exact ⟨(transfer_held s).2, transfer_res s⟩
  · exact absurd hc hp

theorem attemptStep_closed {s : State} (hp : s.ph = .closed) : attemptStep s = finish s := by
  simp only [attemptStep, hp]

/-- Without a reset, a step in flight holds the command and gives no result, or is the step Finish. -/
theorem busyStep_held_or_finish {s : State} (hn : NoResetNext s) :
    (Held s (busyStep s) ∧ (busyStep s).res = none) ∨
      s.ph = .closed ∧ NoMoveBefore s.env ∧ busyStep s = finish s := by
  rcases busyStep_cases s with ⟨_, _, _, -, h⟩ | ⟨he, -⟩ | ⟨hm, h⟩
  · rw [h]
    exact .inl ⟨⟨rfl, rfl, rfl, rfl, rfl, rfl, rfl⟩, rfl⟩
  · exact absurd he hn
  · rw [h]
    by_cases hp : s.ph = .closed
    · exact .inr ⟨hp, hm, attemptStep_closed hp⟩
    · exact .inl (attemptStep_held hp)

/-- The step Finish keeps the address and the latch's opcode. -/
theorem finish_address (s : State) :
    (finish s).abuf = s.abuf ∧ (finish s).dev = s.dev ∧ (finish s).opc = s.opc := by
  rcases finish_cases s with ⟨-, h⟩ | ⟨-, -, h⟩ | ⟨-, -, -, h⟩ | ⟨-, -, -, h⟩ <;> rw [h] <;> exact ⟨rfl, rfl, rfl⟩

/-- R28, R86: the step Finish answers exactly when it clears `BSY`. -/
theorem finish_resValid_iff {s : State} (hb : s.bsy = true) :
    (finish s).resValid = true ↔ (finish s).bsy = false := by
  rcases finish_cases s with ⟨-, h⟩ | ⟨-, -, h⟩ | ⟨-, -, -, h⟩ | ⟨-, -, -, h⟩ <;> rw [h] <;>
    simp [State.resValid, hb]

/-- R206: a result of the step Finish has kind DONE and carries `LST`. -/
theorem finish_result {s : State} {r : Result} (h : (finish s).res = some r) : r.kind = .done ∧ r.tstatus = s.lst := by
  rcases finish_cases s with ⟨-, hf⟩ | ⟨-, -, hf⟩ | ⟨-, -, -, hf⟩ | ⟨-, -, -, hf⟩ <;> rw [hf] at h <;> cases h <;>
    exact ⟨rfl, rfl⟩

@[simp] theorem idleStep_res (s : State) : (idleStep s).res = none := by
  rcases idleStep_cases s with ⟨_, _, _, -, h⟩ | ⟨-, h⟩ | ⟨-, h⟩ <;> rw [h] <;> rfl

/-! ## The result port (R86, R87) -/

theorem busyStep_resValid_iff {s : State} (hb : s.bsy = true) (hn : NoResetNext s) :
    (busyStep s).resValid = true ↔ (busyStep s).bsy = false := by
  rcases busyStep_held_or_finish hn with ⟨hheld, hres⟩ | ⟨-, -, h⟩
  · simp [State.resValid, hres, hheld.bsy, hb]
  · rw [h]
    exact finish_resValid_iff hb

/-- Settles O11: in flight the step Finish answers as it clears `BSY`; a ready block answers a word it does not go on
with, and answers nothing while it waits. -/
theorem resultExactlyWhenCommandEnds : Obligations.ResultExactlyWhenCommandEnds := by
  intro s t hn hs
  rcases step_cases s with ⟨hb, h⟩ | ⟨hb, hw, h⟩ | ⟨hb, ⟨w, hw⟩, _, h⟩ | ⟨-, -, _, _, _, _, -, h⟩ | ⟨-, -, _, _, h⟩ <;>
    rw [h] at hs <;> cases hs
  · rw [busyStep_resValid_iff hb hn]
    simp [hb]
  · simp [State.resValid, hb, hw]
  · simp [State.resValid, hb, hw]
  · simp [State.resValid]
  · simp [State.resValid, State.drawDbuf]

/-- A step that gives a result leaves `BSY` clear. -/
theorem bsy_of_result {s t : State} (hs : step s = .next t) (hr : t.resValid = true) : t.bsy = false := by
  rcases step_cases s with ⟨hb, h⟩ | ⟨-, -, h⟩ | ⟨hb, -, _, h⟩ | ⟨-, -, _, _, _, _, -, h⟩ | ⟨-, -, _, _, h⟩ <;>
    rw [h] at hs <;> cases hs
  · obtain ⟨r, hr⟩ := Option.isSome_iff_exists.mp hr
    obtain ⟨-, hfin⟩ := busyStep_eq_finish_of_res hr
    rw [hfin] at hr ⊢
    exact (finish_resValid_iff hb).mp (by simp [State.resValid, hr])
  · simp [State.resValid] at hr
  · exact hb
  · cases hr
  · cases hr

/-- Settles O56: a result leaves `BSY` clear, and the invariant, which the step keeps, makes that quiescence. -/
theorem everyResultLeavesTheBlockQuiescent : Obligations.EveryResultLeavesTheBlockQuiescent :=
  fun _ _ hi hs hr => (hi.of_step hs).quiet (bsy_of_result hs hr)

/-! ## Accepting a word (R80, R206) -/

theorem exec_port {i : Instr} {s t : State} (h : exec i s = .next t) : t.port = [] := by
  rcases exec_cases i s with ⟨_, hx⟩ | ⟨_, _, _, _, -, hx⟩ | ⟨_, _, -, hx⟩ <;> rw [hx] at h <;> cases h <;> rfl

/-- R206: a well-formed command is not answered ILLEGAL_COMMAND. -/
theorem exec_kind_of_wellFormed {i : Instr} {s t : State} {r : Result} (hw : WellFormed i = true)
    (h : exec i s = .next t) (hr : t.res = some r) : r.kind ≠ .illegalCommand := by
  cases i with
  | enca scale res odr =>
    have hm := (odrMember_iff odr).mp hw
    cases hv : validAcc res odr with
    | true =>
      cases (exec_enca_valid scale s hm hv).symm.trans h
      cases hr
      exact nofun
    | false =>
      cases (exec_enca_invalid scale s hm hv).symm.trans h
      cases hr
      exact nofun
  | cfga scale res odr =>
    have hm := (odrMember_iff odr).mp hw
    cases hv : validAcc res odr with
    | true =>
      cases (exec_cfga_valid scale s hm hv).symm.trans h
      cases hr
    | false =>
      cases (exec_cfga_invalid scale s hm hv).symm.trans h
      cases hr
      exact nofun
  | encm mode modr =>
    cases (exec_encm mode modr s).symm.trans h
    cases hr
    exact nofun
  | cfgm mode modr =>
    cases (exec_cfgm mode modr s).symm.trans h
    cases hr
  | wr dev reg val =>
    cases (exec_wr dev reg val s).symm.trans h
    cases hr
  | rd dev reg =>
    cases (exec_rd dev reg s).symm.trans h
    cases hr

/-- R201, R206: an invalid pair in a word that decodes is answered INVALID_CONFIGURATION. -/
theorem exec_invalid_of_decode {w : Word32} {scale : Scale} {res : Resolution} {odr : Odr} (s : State)
    (hv : validAcc res odr = false) :
    (decode w = .ok (.enca scale res odr) →
      exec (.enca scale res odr) s = .next (s.emit ⟨.invalidConfiguration, 0, 0⟩)) ∧
    (decode w = .ok (.cfga scale res odr) →
      exec (.cfga scale res odr) s = .next (s.emit ⟨.invalidConfiguration, 0, 0⟩)) := by
  constructor <;> intro hd <;> have hm := (odrMember_iff odr).mp (encodeDecodeRoundTrip w _ hd).2
  · exact exec_enca_invalid scale s hm hv
  · exact exec_cfga_invalid scale s hm hv

/-- Settles O12: the decoder's refusal comes before exec, whose only error is then the invalid pair; in flight only the
step Finish answers. -/
theorem errorPriority : Obligations.ErrorPriority := by
  refine ⟨fun s t w rest hb hh hs => ?_, fun s t r hb hs hr => ?_⟩
  · obtain ⟨haccept, hrefuse⟩ := step_presented ((cmdReady_iff s).mpr hb) hh
    cases hd : decode w with
    | error e =>
      have hill := illegalWord_of_decode_error hd
      rw [hrefuse e hd] at hs
      cases hs
      exact ⟨rfl, fun _ => rfl, fun _ _ _ hlegal => absurd hill hlegal, fun _ _ _ => hill⟩
    | ok i =>
      have hlegal := not_illegalWord_of_decode hd
      rw [haccept i hd] at hs
      refine ⟨exec_port hs, fun hill => absurd hill hlegal, fun scale res odr _ hi hv => ?_, fun r hr hk => ?_⟩
      · obtain ⟨henca, hcfga⟩ := exec_invalid_of_decode (w := w) (scale := scale) (s.withHost rest) hv
        rcases hi with hi | hi <;> cases hi
        · cases (hcfga hd).symm.trans hs
          rfl
        · cases (henca hd).symm.trans hs
          rfl
      · exact absurd hk (exec_kind_of_wellFormed (encodeDecodeRoundTrip w i hd).2 hs hr)
  · rw [step_busy hb] at hs
    cases hs
    obtain ⟨hp, hfin⟩ := busyStep_eq_finish_of_res hr
    rw [hfin] at hr ⊢
    obtain ⟨hkind, hstatus⟩ := finish_result hr
    exact ⟨hkind, hstatus, hp, (finish_closes s).2.1⟩

/-- Settles O7: the step of a ready block with a word that decodes. -/
theorem stepRunsDecodedCommand : Obligations.StepRunsDecodedCommand :=
  fun s _ _ i hb hh hd => (step_presented ((cmdReady_iff s).mpr hb) hh).1 i hd

theorem idleStep_waits {s : State} (hn : NoMoveBefore s.env) : idleStep s = s.say [] := by
  rcases idleStep_cases s with ⟨_, _, _, he, -⟩ | ⟨he, -⟩ | ⟨-, h⟩
  · exact nomatch hn _ he
  · exact nomatch hn _ he
  · exact h

/-- Settles O10: with no move of the outside world, the waiting step empties the output ports. -/
theorem idleBlockWaits : Obligations.IdleBlockWaits := by
  intro s hb hw hn
  rw [step_idle hb hw, idleStep_waits (s := s.popHost) hn]
  rfl

/-! ## Reset (10_state R42, 70 R230, R231) -/

theorem busyStep_reset {s : State} (he : s.env.move = some .reset) : busyStep s = s.pop.resetAll := by
  simp only [busyStep, he]

theorem idleStep_reset {s : State} (he : s.env.move = some .reset) : idleStep s = s.pop.resetBlock := by
  simp only [idleStep, he]

/-- Settles O50: with a command in flight the step is the reset of block and environment, otherwise that of the block. -/
theorem resetInput : Obligations.ResetInput := by
  intro s he hwait
  cases hb : s.bsy with
  | true =>
    rw [step_busy hb, busyStep_reset he]
    exact ⟨_, rfl, ⟨rfl, rfl, rfl, rfl, rfl⟩, rfl, rfl, rfl, rfl, nofun, fun _ => ⟨rfl, rfl⟩⟩
  | false =>
    have hw : s.cmdWord = none := hwait.resolve_left (by rw [hb]; decide)
    rw [step_idle hb hw, idleStep_reset (s := s.popHost) he]
    exact ⟨_, rfl, ⟨rfl, rfl, rfl, rfl, rfl⟩, rfl, rfl, rfl, rfl, fun _ => rfl, nofun⟩

/-- Settles O49: the values of R42. -/
theorem resetIsQuiescent : Obligations.ResetIsQuiescent := ⟨rfl, rfl, rfl, rfl, rfl, rfl, rfl⟩

/-! ## Every step of the machine -/

/-- Settles O53: a step in flight, a waiting step and acceptance each keep the invariant. -/
theorem everyStepKeepsTheInvariant : Obligations.EveryStepKeepsTheInvariant := fun _ _ => Inv.of_step

/-- Settles O54: the reset state is quiescent, with no cell known and nothing armed. -/
theorem resetMeetsTheInvariant : Obligations.ResetMeetsTheInvariant :=
  Quiescent.inv ⟨rfl, rfl, rfl, rfl, rfl⟩ Memory.wf_nil rfl

/-- Settles O55: each of the kinds of step has a next state. -/
theorem machineNeverStops : Obligations.MachineNeverStops := by
  intro s
  rcases step_cases s with ⟨-, h⟩ | ⟨-, -, h⟩ | ⟨-, -, _, h⟩ | ⟨-, -, _, _, _, _, -, h⟩ | ⟨-, -, _, _, h⟩ <;>
    exact ⟨_, h⟩

end Sys2Proof.Machine

/-! PROOF. What acceptance does: the fields of the control bytes and the encoder's answers (10_state R35, R36; 41_encoder
R110 to R117), the loading of the command latch (42_transaction R150, R153; 43_configure R170, R172), and `ATT`. -/

namespace Sys2Proof.Machine

/-! ## Valid pairs (R112) -/

theorem validAcc_r14_iff (odr : Odr) : validAcc .r14 odr = true ↔ odr.toNat ≤ 7 := by
  simp [validAcc, Config.i800, BitVec.le_def]

/-- Settles O13: one bound for each resolution. -/
theorem validPairs : Obligations.ValidPairs := by
  intro res odr _
  cases res with
  | r10 => simp [validAcc_r10_iff]
  | r12 => simp [validAcc_r12_iff]
  | r14 => simp [validAcc_r14_iff]

theorem hfFlag_bit (res : Resolution) : (hfFlag res).getLsbD 0 = decide (res = .r12) := by cases res <;> rfl

/-! ## The fields of the two control registers -/

/-- R35: the fields are read back from the layout of R111. -/
theorem ctrl_fields_append (code : BitVec 4) (scale : BitVec 2) (hf : BitVec 1) :
    ctrlOdrCode (code ++ scale ++ hf ++ 0#1) = code ∧ ctrlScale (code ++ scale ++ hf ++ 0#1) = scale ∧
      ctrlHf (code ++ scale ++ hf ++ 0#1) = hf.getLsbD 0 ∧ ctrlReserved (code ++ scale ++ hf ++ 0#1) = false := by
  revert code scale hf
  decide

/-- R36: the fields are read back from the layout of R116. -/
theorem cfg_fields_append (modr mode : BitVec 2) :
    cfgTempComp (1#1 ++ 0#3 ++ modr ++ mode) = true ∧ cfgUnnamed (1#1 ++ 0#3 ++ modr ++ mode) = 0 ∧
      cfgHighRes (1#1 ++ 0#3 ++ modr ++ mode) = false ∧ cfgOdr (1#1 ++ 0#3 ++ modr ++ mode) = modr ∧
      cfgMode (1#1 ++ 0#3 ++ modr ++ mode) = mode := by
  revert modr mode
  decide

theorem ctrl_fields_encAcc (scale : Scale) (res : Resolution) (odr : Odr) :
    ctrlOdrCode (encAcc scale res odr) = odrCode res odr ∧ ctrlScale (encAcc scale res odr) = scale.ordinal ∧
      ctrlHf (encAcc scale res odr) = decide (res = .r12) ∧ ctrlReserved (encAcc scale res odr) = false := by
  rw [encAcc_eq_append, ← hfFlag_bit]
  exact ctrl_fields_append _ _ _

theorem cfg_fields_encMag (mode : MagMode) (modr : MagOdr) :
    cfgTempComp (encMag mode modr) = true ∧ cfgUnnamed (encMag mode modr) = 0 ∧ cfgHighRes (encMag mode modr) = false ∧
      cfgOdr (encMag mode modr) = modr ∧ cfgMode (encMag mode modr) = mode.ordinal := by
  rw [encMag_eq_append]
  exact cfg_fields_append modr mode.ordinal

/-- Settles O17: the fields of the two layouts. -/
theorem controlRegisterFields : Obligations.ControlRegisterFields := by
  refine ⟨fun scale res odr _ hv => ?_, cfg_fields_encMag⟩
  obtain ⟨hcode, hscale, hhf, hreserved⟩ := ctrl_fields_encAcc scale res odr
  refine ⟨?_, hscale, hhf, hreserved⟩
  rw [hcode]
  cases res with
  | r10 => exact odrCode_r10_toNat hv
  | r12 => exact odrCode_r12_toNat hv
  | r14 => rfl

/-! ## Recovering a configuration (R114, R117) -/

theorem Scale.ordinal_injective {a b : Scale} (h : a.ordinal = b.ordinal) : a = b := by
  rw [← Scale.ofOrdinal_ordinal a, h, Scale.ofOrdinal_ordinal]

theorem MagMode.ordinal_injective {a b : MagMode} (h : a.ordinal = b.ordinal) : a = b := by
  have := MagMode.ofOrdinal_ordinal a
  rw [h, MagMode.ofOrdinal_ordinal] at this
  exact (Option.some.inj this).symm

/-- R115: the code of a 14-bit rate is below that of every 10-bit rate. -/
theorem odrCode_r14_ne_r10 {odr odr' : Odr} (hv : validAcc .r14 odr = true) (hv' : validAcc .r10 odr' = true) :
    odrCode .r14 odr ≠ odrCode .r10 odr' := by
  intro h
  have hcode : odr.toNat = (odrCode .r10 odr').toNat := congrArg BitVec.toNat h
  rw [odrCode_r10_toNat hv'] at hcode
  have := (validAcc_r14_iff odr).mp hv
  omega

/-- R115: on the valid rates of one resolution, different rates have different codes. -/
theorem odrCode_injective {res : Resolution} {odr odr' : Odr} (hv : validAcc res odr = true)
    (hv' : validAcc res odr' = true) (h : odrCode res odr = odrCode res odr') : odr = odr' := by
  have hcode := congrArg BitVec.toNat h
  refine BitVec.eq_of_toNat_eq ?_
  cases res with
  | r10 =>
    rw [odrCode_r10_toNat hv, odrCode_r10_toNat hv'] at hcode
    exact Nat.add_left_cancel hcode
  | r12 =>
    rw [odrCode_r12_toNat hv, odrCode_r12_toNat hv'] at hcode
    have := (validAcc_r12_iff odr).mp hv
    have := (validAcc_r12_iff odr').mp hv'
    omega
  | r14 => exact hcode

/-- R114: the flag tells 12-bit from the others, and the code tells 10-bit from 14-bit. -/
theorem resolution_unique {res res' : Resolution} {odr odr' : Odr} (hv : validAcc res odr = true)
    (hv' : validAcc res' odr' = true) (hhf : decide (res = .r12) = decide (res' = .r12))
    (hcode : odrCode res odr = odrCode res' odr') : res = res' := by
  cases res <;> cases res' <;> try rfl
  case r10.r14 => exact absurd hcode.symm (odrCode_r14_ne_r10 hv' hv)
  case r14.r10 => exact absurd hcode (odrCode_r14_ne_r10 hv hv')
  all_goals exact absurd hhf (by decide)

/-- Settles O16: each configuration is read back from the fields of its byte. -/
theorem controlBytesDetermineConfiguration : Obligations.ControlBytesDetermineConfiguration := by
  refine ⟨fun scale scale' res res' odr odr' _ _ hv hv' h => ?_, fun mode mode' modr modr' h => ?_,
    fun scale res odr => ?_, fun mode modr => ?_⟩
  · obtain ⟨hcode, hscale, hhf, -⟩ := ctrl_fields_encAcc scale res odr
    obtain ⟨hcode', hscale', hhf', -⟩ := ctrl_fields_encAcc scale' res' odr'
    rw [h] at hcode hscale hhf
    have hcode := hcode.symm.trans hcode'
    obtain rfl := resolution_unique hv hv' (hhf.symm.trans hhf') hcode
    exact ⟨Scale.ordinal_injective (hscale.symm.trans hscale'), rfl, odrCode_injective hv hv' hcode⟩
  · obtain ⟨-, -, -, hmodr, hmode⟩ := cfg_fields_encMag mode modr
    obtain ⟨-, -, -, hmodr', hmode'⟩ := cfg_fields_encMag mode' modr'
    rw [h] at hmodr hmode
    exact ⟨MagMode.ordinal_injective (hmode.symm.trans hmode'), hmodr.symm.trans hmodr'⟩
  · obtain ⟨-, -, -, hreserved⟩ := ctrl_fields_encAcc scale res odr
    exact hreserved
  · rw [encMag_eq_append]
    generalize mode.ordinal = m
    revert m modr
    decide

/-! ## The encoder's answer (R110) -/

/-- Settles O18: the result is a function of the operands. -/
theorem encoderReadsAndWritesNoRegister : Obligations.EncoderReadsAndWritesNoRegister := by
  intro i s s' hi
  obtain ⟨r, hexec⟩ := exec_encoder hi
  exact ⟨r, hexec s, hexec s'⟩

/-! ## Acceptance (R150, R153, R170, R172) -/

/-- Settles O20: the three acceptances. -/
theorem writeCommandsAccepted : Obligations.WriteCommandsAccepted :=
  ⟨fun s dev reg val => exec_wr dev reg val s, fun s scale _ _ hm hv => exec_cfga_valid scale s hm hv,
    fun s mode modr => exec_cfgm mode modr s⟩

/-- Settles O21: the acceptance of a read. -/
theorem readAccepted : Obligations.ReadAccepted := fun s dev reg => exec_rd dev reg s

/-- Settles O22: by the three outcomes of acceptance. -/
theorem commandFrame : Obligations.CommandFrame := by
  intro i s t h
  have hencoder : (∃ scale res odr, i = .enca scale res odr) ∨ (∃ mode modr, i = .encm mode modr) → ∃ r, t.res = some r := by
    intro hi
    obtain ⟨r, hr⟩ := exec_encoder hi
    cases (hr s).symm.trans h
    exact ⟨r, rfl⟩
  rcases exec_cases i s with ⟨_, hx⟩ | ⟨_, _, _, _, -, hx⟩ | ⟨dev, reg, hi, hx⟩ <;> rw [hx] at h <;> cases h
  · exact ⟨fun _ => rfl, rfl, rfl, rfl, rfl, rfl, rfl, rfl, rfl, rfl, fun _ => rfl,
      fun _ => ⟨rfl, rfl, rfl, rfl, rfl, rfl⟩, hencoder⟩
  · exact ⟨fun _ => rfl, rfl, rfl, rfl, rfl, rfl, rfl, rfl, rfl, rfl, fun _ => rfl, nofun, hencoder⟩
  · exact ⟨fun _ => rfl, rfl, rfl, rfl, rfl, rfl, rfl, rfl, rfl, rfl, fun hne => absurd hi (hne dev reg), nofun, hencoder⟩

/-! ## `ATT` (10_state R25) -/

/-- R25, R150, R153: acceptance loads two attempts for a read and one for a write. -/
theorem exec_att {i : Instr} {s t : State} (hb : s.bsy = false) (h : exec i s = .next t) (ht : t.bsy = true) :
    t.att = if t.opc = 0x4#4 then 2 else 1 := by
  rcases exec_cases i s with ⟨_, hx⟩ | ⟨op, _, _, _, ho, hx⟩ | ⟨_, _, -, hx⟩ <;> rw [hx] at h <;> cases h
  · exact absurd (hb.symm.trans ht) Bool.false_ne_true
  · exact (if_neg (writeOpcode_ne_read ho)).symm
  · rfl

/-- R25, R153: the end of an attempt counts it, and a clean read needs no further one. -/
theorem finish_att (s : State) :
    (finish s).att.val = if s.isRead = true ∧ s.lst = Config.stNoErr then 0 else s.att.val - 1 := by
  rcases finish_cases s with ⟨hr, h⟩ | ⟨hr, hl, h⟩ | ⟨-, hl, -, h⟩ | ⟨-, hl, -, h⟩ <;> rw [h]
  · simp [hr]
  · simp [hr, hl]
  · simp [hl]
  · simp [hl]

/-- Settles O23: what acceptance loads; the step Finish; every other step in flight holds the command; and the invariant
for a ready block. -/
theorem attemptCounter : Obligations.AttemptCounter := by
  refine ⟨fun s t i hb => exec_att hb, fun s t _ hb hp hm hs => ?_, fun s t _ hb hp hn hs => ?_, fun s hi hb => ?_⟩
  · rw [step_finish hb hp hm] at hs
    cases hs
    exact finish_att s
  · rw [step_busy hb] at hs
    cases hs
    rcases busyStep_held_or_finish hn with ⟨hheld, -⟩ | ⟨hclosed, hm, -⟩
    · exact hheld.att
    · exact absurd hp (by simp [hclosed, hm])
  · obtain ⟨-, -, hatt, -⟩ := hi.quiet hb
    exact hatt

end Sys2Proof.Machine

/-! PROOF. The steps of an attempt (42_transaction R131 to R146): acquisition, set-up, the busy poll; what may write `DBUF`,
`PH`, the address and a cell. -/

namespace Sys2Proof.Machine

/-! ## Acquisition (R132) -/

theorem acquire_answered {s : State} {g : Bool} (he : s.env.move = some (.grant g)) :
    acquire s = openCall g s.pop := by
  rw [acquire, he, openAnswer]

/-- Settles O24: the answer decides whether `PH` changes. -/
theorem acquisitionStep : Obligations.AcquisitionStep := by
  intro s g hb hp he
  rw [step_acquire hb hp (noMoveBefore_of_move he rfl), acquire_answered he, ← hp]
  rfl

/-! ## Set-up (R133) -/

/-- The block is at one of the steps S2 to S5, and it is its turn. -/
structure SettingUp (s : State) : Prop where
  busy : s.bsy = true
  phase : s.ph = .busAcquired
  turn : NoMoveBefore s.env

section SettingUp

variable {s : State} (h : SettingUp s)

include h

theorem SettingUp.setBuf : SettingUp (setBuf s) := ⟨h.busy, h.phase, h.turn⟩

theorem SettingUp.setCb : SettingUp (setCb s) := ⟨h.busy, h.phase, h.turn⟩

theorem SettingUp.setNack : SettingUp (setNack s) := ⟨h.busy, h.phase, h.turn⟩

theorem step_setBuf (ha : s.armed = none) : step s = .next (setBuf s) := by
  rw [step_setUp h.busy h.phase h.turn, setUp, if_pos ha]

theorem step_setCb (ha : s.armed ≠ none) (hc : s.cbh = .none) : step s = .next (setCb s) := by
  rw [step_setUp h.busy h.phase h.turn, setUp, if_neg ha, if_pos hc]

theorem step_setNack (ha : s.armed ≠ none) (hc : s.cbh ≠ .none) (hn : s.nah = .none) : step s = .next (setNack s) := by
  rw [step_setUp h.busy h.phase h.turn, setUp, if_neg ha, if_neg hc, if_pos hn]

theorem step_start (ha : s.armed ≠ none) (hc : s.cbh ≠ .none) (hn : s.nah ≠ .none) : step s = .next (start s) := by
  rw [step_setUp h.busy h.phase h.turn, setUp, if_neg ha, if_neg hc, if_neg hn]

end SettingUp

theorem stageHandler_eq (s : State) : stageHandler s = if s.opc = 0x4#4 then .rdStage else .wrStage := by
  simp only [stageHandler, isRead_iff]

/-- Settles O25: each call sets up what selects the next. -/
theorem setUpSequence : Obligations.SetUpSequence := by
  intro s hb hp ha hc hn hm
  have h2 : SettingUp s := ⟨hb, hp, hm⟩
  have h3 := h2.setBuf
  have h4 := h3.setCb
  have h5 := h4.setNack
  have harmed : (setBuf s).armed ≠ none := Option.some_ne_none _
  have hcbh : (setCb (setBuf s)).cbh ≠ .none := stageHandler_ne_none (setBuf s)
  exact ⟨setBuf s, setCb (setBuf s), setNack (setCb (setBuf s)), start (setNack (setCb (setBuf s))), stageHandler s,
    stageHandler_eq s, step_setBuf h2 ha, step_setCb h3 harmed hc, step_setNack h4 harmed hcbh hn,
    step_start h5 harmed hcbh NackHandler.noConfusion, rfl, rfl, rfl, rfl⟩

/-! ## The busy poll (R134) -/

/-- Settles O26: a busy answer, or an environment that is silent, makes the step a poll. -/
theorem busyAnswerChangesNothing : Obligations.BusyAnswerChangesNothing := by
  intro s hb hp
  refine ⟨fun he => ?_, fun he => ?_⟩
  · exact step_busy_poll ⟨hb, hp⟩ fun m hm => Option.some.inj (hm.symm.trans he)
  · have hpoll := step_busy_poll ⟨hb, hp⟩ fun m hm => nomatch hm.symm.trans he
    rw [State.pop, Environment.next_of_silent he] at hpoll
    exact hpoll

/-! ## `DBUF` in flight (R63) -/

@[simp] theorem acquire_dbuf (s : State) : (acquire s).dbuf = s.dbuf := by
  rcases acquire_cases s with h | ⟨-, h⟩ <;> rw [h] <;> rfl

@[simp] theorem setUp_dbuf (s : State) : (setUp s).dbuf = s.dbuf := by
  rcases setUp_cases s with ⟨-, h⟩ | ⟨-, -, h⟩ | ⟨-, -, -, h⟩ | ⟨-, -, -, h⟩ <;> rw [h] <;> rfl

/-- R63: only the first deposit of a read's data phase writes the buffer during a transfer. -/
theorem transfer_dbuf (s : State) :
    (transfer s).dbuf = s.dbuf ∨
      ∃ b, s.env.move = some (.deposit b) ∧ s.ph = .dataPhaseReceived ∧ s.deposited = false ∧
        transfer s = { s.pop.say [.deposit b] with dbuf := b, deposited := true } := by
  rcases transfer_cases s with ⟨_, h⟩ | ⟨-, -, h⟩ | ⟨-, -, h⟩ | hdeposit | ⟨-, -, h⟩ | ⟨_, -, -, h⟩
  case inr.inr.inr.inl => exact .inr hdeposit
  all_goals exact .inl (by rw [h]; rfl)

/-- R131, R154: the step Finish writes the buffer only by the draw of a second attempt. -/
theorem finish_dbuf {s : State} (hb : s.bsy = true) :
    (finish s).dbuf = s.dbuf ∨
      s.isRead = true ∧ s.lst ≠ Config.stNoErr ∧ (finish s).bsy = true ∧ (finish s).dbuf = Config.any8 s.draws := by
  rcases finish_cases s with ⟨-, h⟩ | ⟨-, -, h⟩ | ⟨-, -, -, h⟩ | ⟨hr, hl, -, h⟩ <;> rw [h]
  case inr.inr.inr => exact .inr ⟨hr, hl, hb, rfl⟩
  all_goals exact .inl rfl

/-- Settles O30: by phase, only the transfer's deposit and the step Finish of a failed read write the buffer. -/
theorem depositIsTheOnlyBufferWrite : Obligations.DepositIsTheOnlyBufferWrite := by
  refine ⟨fun s t hb hn hs hne => ?_, fun s b hb hp hd he => deposit_step hb hp hd he⟩
  rw [step_busy hb] at hs
  cases hs
  rcases busyStep_cases s with ⟨_, _, _, -, h⟩ | ⟨he, -⟩ | ⟨-, h⟩
  · exact absurd (by rw [h]; rfl) hne
  · exact absurd he hn
  · rw [h] at hne ⊢
    rcases attemptStep_cases s with ⟨-, h⟩ | ⟨-, h⟩ | ⟨-, h⟩ | ⟨hp, h⟩ <;> rw [h] at hne ⊢
    · exact absurd (acquire_dbuf s) hne
    · exact absurd (setUp_dbuf s) hne
    · obtain ⟨b, he, hp, hd, ht⟩ := (transfer_dbuf s).resolve_left hne
      exact .inl ⟨hp, hd, b, he, ht⟩
    · obtain ⟨hr, hl, hbsy, hdraw⟩ := (finish_dbuf hb).resolve_left hne
      exact .inr ⟨hp, hr, hl, hbsy, hdraw⟩

/-- R32: during a write no step writes the buffer. -/
theorem step_dbuf_of_write {s t : State} (hi : Inv s) (hb : s.bsy = true) (hr : s.isRead = false) (hn : NoResetNext s)
    (hs : step s = .next t) : t.dbuf = s.dbuf := by
  by_contra hne
  rcases depositIsTheOnlyBufferWrite.1 s t hb hn hs hne with ⟨hp, -⟩ | ⟨-, hread, -⟩
  · exact (isRead_false_iff s).mp hr (hi.receivedByRead hp)
  · exact Bool.false_ne_true (hr.symm.trans hread)

/-! ## The address (R22, R32) -/

/-- Without a reset, a step in flight keeps the address and the opcode. -/
theorem busyStep_address {s : State} (hn : NoResetNext s) :
    (busyStep s).abuf = s.abuf ∧ (busyStep s).dev = s.dev ∧ (busyStep s).opc = s.opc := by
  rcases busyStep_held_or_finish hn with ⟨hheld, -⟩ | ⟨-, -, h⟩
  · exact ⟨hheld.abuf, hheld.dev, hheld.opc⟩
  · rw [h]
    exact finish_address s

/-- Without a reset, a waiting block keeps them. -/
theorem idleStep_address {s : State} (hn : NoResetNext s) :
    (idleStep s).abuf = s.abuf ∧ (idleStep s).dev = s.dev ∧ (idleStep s).opc = s.opc := by
  rcases idleStep_cases s with ⟨_, _, _, -, h⟩ | ⟨he, -⟩ | ⟨-, h⟩
  · rw [h]
    exact ⟨rfl, rfl, rfl⟩
  · exact absurd he hn
  · rw [h]
    exact ⟨rfl, rfl, rfl⟩

/-- Settles O32: neither a step in flight nor a waiting step writes the address; a write's byte is kept by R63. -/
theorem addressHeldToTheEnd : Obligations.AddressHeldToTheEnd := by
  intro s t hi hwait hn hs
  cases hb : s.bsy with
  | true =>
    have hdbuf := fun hr => step_dbuf_of_write hi hb hr hn hs
    rw [step_busy hb] at hs
    cases hs
    obtain ⟨habuf, hdev, hopc⟩ := busyStep_address hn
    exact ⟨habuf, hdev, hopc, fun _ => hdbuf⟩
  | false =>
    rw [step_idle hb (hwait.resolve_left (by rw [hb]; decide))] at hs
    cases hs
    obtain ⟨habuf, hdev, hopc⟩ := idleStep_address (s := s.popHost) hn
    exact ⟨habuf, hdev, hopc, nofun⟩

/-! ## `PH` (R136) -/

/-- R133: when the set-up calls have been made, the address buffer is armed. -/
theorem Inv.armed_address {s : State} (hi : Inv s) (hp : s.ph = .busAcquired) (ha : s.armed ≠ none) :
    s.armed = some .abuf := by
  obtain ⟨hdbuf, -⟩ := hi.settingUp hp
  cases h : s.armed with
  | none => exact absurd h ha
  | some b =>
    cases b with
    | abuf => rfl
    | dbuf => exact absurd h hdbuf

/-- R26: the installed handler is that of the command. -/
theorem Inv.handler_of_opcode {s : State} (hi : Inv s) (hc : s.cbh ≠ .none) :
    s.cbh = if s.opc = 0x4#4 then .rdStage else .wrStage := by
  cases h : s.cbh with
  | none => exact absurd h hc
  | wrStage => exact (if_neg ((isRead_false_iff s).mp (hi.writeHandler h))).symm
  | rdStage => exact (if_pos ((isRead_iff s).mp (hi.readHandler h))).symm

/-- R136: the set-up step that leaves BusAcquired is `T.start`, with everything set up. -/
theorem setUp_phase {s : State} (hi : Inv s) (hp : s.ph = .busAcquired) (hne : (setUp s).ph ≠ s.ph) :
    (setUp s).ph = .addressPhaseSent ∧ (setUp s).port = [.tStart] ∧ s.armed = some .abuf ∧ s.nah = .retry ∧
      (setUp s).cbh = s.cbh ∧ s.cbh = if s.opc = 0x4#4 then .rdStage else .wrStage := by
  rcases setUp_cases s with ⟨-, h⟩ | ⟨-, -, h⟩ | ⟨-, -, -, h⟩ | ⟨ha, hc, hn, h⟩
  case inr.inr.inr =>
    have hn : s.nah = .retry := by
      cases hx : s.nah with
      | none => exact absurd hx hn
      | retry => rfl
    rw [h]
    exact ⟨rfl, rfl, hi.armed_address hp ha, hn, rfl, hi.handler_of_opcode hc⟩
  all_goals exact absurd (by rw [h]; rfl) hne

/-- R136: a transfer changes phase by COMPLETE with the handler of the command, or by its status. -/
theorem transfer_phase {s : State} (hi : Inv s) (hp : s.ph.inTransfer = true) (hne : (transfer s).ph ≠ s.ph) :
    (s.ph = .addressPhaseSent ∧ s.cbh = .rdStage ∧
      transfer s = handlerFires .dataPhaseReceived .restartRead s.pop) ∨
    (s.ph = .addressPhaseSent ∧ s.cbh = .wrStage ∧
      transfer s = handlerFires .dataPhaseSent .continueWrite s.pop) ∨
    ∃ st, st ≠ Config.stBusy ∧ transfer s =
      { s.pop.say [.tClose st] with lst := st, ph := .closed, cbh := .none, nah := .none, armed := none } := by
  have hfired : ∀ c, s.cbh = c → c ≠ .none → s.ph = .addressPhaseSent := fun c hc hcn =>
    hi.addressPhase_of_handler hp (hc ▸ hcn)
  rcases transfer_cases s with ⟨_, h⟩ | ⟨-, hc, h⟩ | ⟨-, hc, h⟩ | ⟨_, -, -, -, h⟩ | ⟨-, -, h⟩ | ⟨st, -, hst, h⟩
  case inr.inl => exact .inr (.inl ⟨hfired _ hc nofun, hc, h⟩)
  case inr.inr.inl => exact .inl ⟨hfired _ hc nofun, hc, h⟩
  case inr.inr.inr.inr.inr => exact .inr (.inr ⟨st, hst, h⟩)
  all_goals exact absurd (by rw [h]; rfl) hne

theorem finish_att_lt {s : State} (ha : 1 ≤ s.att) : (finish s).att < s.att := by
  have hlt : (finish s).att.val < s.att.val := by
    have hpos : 1 ≤ s.att.val := ha
    rw [finish_att]
    split <;> omega
  exact hlt

/-- Settles O31: each phase is left only by the steps of R136. -/
theorem phaseTransitionRelation : Obligations.PhaseTransitionRelation := by
  intro s t hi hb hn hs hne
  rw [step_busy hb] at hs
  cases hs
  rcases busyStep_cases s with ⟨_, _, _, -, h⟩ | ⟨he, -⟩ | ⟨-, h⟩
  · exact absurd (by rw [h]; rfl) hne
  · exact absurd he hn
  · rw [h] at hne ⊢
    rcases attemptStep_cases s with ⟨hp, h⟩ | ⟨hp, h⟩ | ⟨hp, h⟩ | ⟨hp, h⟩ <;> rw [h] at hne ⊢
    · rcases acquire_cases s with h | ⟨-, h⟩ <;> rw [h] at hne ⊢
      · exact absurd rfl hne
      · obtain ⟨hcbh, hnah, -⟩ := hi.noAttempt (.inl hp)
        exact .inl ⟨hp, rfl, rfl, hcbh, hnah, rfl⟩
    · obtain ⟨hph, hport, harmed, hnah, hcbh, hhandler⟩ := setUp_phase hi hp hne
      exact .inr (.inl ⟨hp, hph, hport, harmed, hnah, hcbh, hhandler, setUp_lst s⟩)
    · rcases transfer_phase hi hp hne with ⟨ha, hc, h⟩ | ⟨ha, hc, h⟩ | ⟨st, hst, h⟩ <;> rw [h]
      · exact .inr (.inr (.inl ⟨ha, rfl, hc, rfl, rfl, rfl, rfl⟩))
      · exact .inr (.inr (.inr (.inl ⟨ha, rfl, hc, rfl, rfl, rfl, rfl⟩)))
      · exact .inr (.inr (.inr (.inr (.inl ⟨hp, rfl, rfl, rfl, st, hst, rfl, rfl⟩))))
    · obtain ⟨hph, hport, hlst, -⟩ := finish_closes s
      exact .inr (.inr (.inr (.inr (.inr ⟨hp, hph, hport, finish_att_lt (hi.attemptLeft hb), hlst⟩))))

/-! ## Between two attempts (R146) -/

/-- Settles O34: `Closed` and `Idle` do not own the bus, and the second attempt begins with `T.open`. -/
theorem busFreeBetweenAttempts : Obligations.BusFreeBetweenAttempts := by
  intro s hb hr hp ha hl hm
  refine ⟨by rw [State.ownsBus, hp]; rfl, (attemptEnds s).drawDbuf, ?_, rfl, hb, rfl, ?_, fun he => ?_⟩
  · rw [step_finish hb hp hm, finish_of_failed_read hr hl ha]
  · rw [State.drawDbuf_att, attemptEnds_att, ha, attemptUsed_two]
  · have hgrant : (attemptEnds s).drawDbuf.env.move = some (.grant true) := he
    rw [step_acquire (s := (attemptEnds s).drawDbuf) hb rfl (noMoveBefore_of_move he rfl), acquire_answered hgrant]
    exact ⟨_, rfl, rfl, rfl⟩

/-! ## Cells (20_memory R52, R64) -/

/-- Without a reset, what a step in flight does to the device register space. -/
theorem busyStep_mem {s : State} (hn : NoResetNext s) :
    (busyStep s).mem = s.mem ∨
    (s.ph = .dataPhaseSent ∧ s.env.move = some .store ∧
      (busyStep s).mem = s.mem.write (cellAddr s.dev s.abuf) s.dbuf) ∨
    ∃ d r b, s.env.move = some (.cell d r b) ∧ (busyStep s).mem = s.mem.write (cellAddr d r) b := by
  rcases busyStep_cases s with ⟨d, r, b, he, h⟩ | ⟨he, -⟩ | ⟨-, h⟩
  · exact .inr (.inr ⟨d, r, b, he, by rw [h]; rfl⟩)
  · exact absurd he hn
  · rw [h]
    rcases attemptStep_cases s with ⟨-, h⟩ | ⟨-, h⟩ | ⟨-, h⟩ | ⟨-, h⟩ <;> rw [h]
    · rcases acquire_cases s with h | ⟨-, h⟩ <;> rw [h] <;> exact .inl rfl
    · rcases setUp_cases s with ⟨-, h⟩ | ⟨-, -, h⟩ | ⟨-, -, -, h⟩ | ⟨-, -, -, h⟩ <;> rw [h] <;> exact .inl rfl
    · rcases transfer_cases s with ⟨_, h⟩ | ⟨-, -, h⟩ | ⟨-, -, h⟩ | ⟨_, -, -, -, h⟩ | ⟨he, hp, h⟩ | ⟨_, -, -, h⟩ <;> rw [h]
      case inr.inr.inr.inr.inl => exact .inr (.inl ⟨hp, he, rfl⟩)
      all_goals exact .inl rfl
    · rcases finish_cases s with ⟨-, h⟩ | ⟨-, -, h⟩ | ⟨-, -, -, h⟩ | ⟨-, -, -, h⟩ <;> rw [h] <;> exact .inl rfl

/-- Without a reset, only a change by itself touches a cell while the block waits. -/
theorem idleStep_mem {s : State} (hn : NoResetNext s) :
    (idleStep s).mem = s.mem ∨
    ∃ d r b, s.env.move = some (.cell d r b) ∧ (idleStep s).mem = s.mem.write (cellAddr d r) b := by
  rcases idleStep_cases s with ⟨d, r, b, he, h⟩ | ⟨he, -⟩ | ⟨-, h⟩
  · exact .inr ⟨d, r, b, he, by rw [h]; rfl⟩
  · exact absurd he hn
  · exact .inl (by rw [h]; rfl)

/-- Overwriting one cell leaves every other as it was. -/
theorem read_of_write {m m' : Memory} {a : Nat} {b : Byte} (h : m' = m.write a b) :
    m'.read a = some b ∧ ∀ x, x ≠ a → m'.read x = m.read x := by
  rw [h]
  exact ⟨Memory.read_write_same m a b, fun _ hx => Memory.read_write_other m b hx⟩

/-- Settles O45: a step keeps the cells or overwrites one. -/
theorem memoryFrame : Obligations.MemoryFrame := by
  intro s t hn hs
  rcases step_cases s with ⟨hb, h⟩ | ⟨-, -, h⟩ | ⟨-, -, _, h⟩ | ⟨-, -, _, _, _, _, -, h⟩ | ⟨-, -, _, _, h⟩ <;>
    rw [h] at hs <;> cases hs
  · rcases busyStep_mem hn with hm | ⟨hp, he, hm⟩ | ⟨d, r, b, he, hm⟩
    · exact .inl fun _ => by rw [hm]
    · obtain ⟨hsame, hother⟩ := read_of_write hm
      exact .inr (.inl ⟨hb, hp, he, hsame, hother⟩)
    · obtain ⟨hsame, hother⟩ := read_of_write hm
      exact .inr (.inr ⟨d, r, b, he, hsame, hother⟩)
  · rcases idleStep_mem (s := s.popHost) hn with hm | ⟨d, r, b, he, hm⟩
    · exact .inl fun _ => by rw [hm]; rfl
    · obtain ⟨hsame, hother⟩ := read_of_write hm
      exact .inr (.inr ⟨d, r, b, he, hsame, hother⟩)
  · exact .inl fun _ => rfl
  · exact .inl fun _ => rfl
  · exact .inl fun _ => rfl

end Sys2Proof.Machine

/-! PROOF. Whole transactions (42_transaction R150 to R159): every write and every read comes to its result, after one
attempt or two. -/

namespace Sys2Proof.Machine

/-! ## Writes (R150, R151) -/

/-- R150: the attempt of a write in flight ends in its result. -/
theorem write_run {u : State} {st : Status} {script : List EnvMove} {rest : Environment} (hi : Inv u)
    (hb : u.bsy = true) (hr : u.isRead = false) (hp : u.ph = .idle) (he : Environment.Begins script u.env rest)
    (hs : AttemptScript st script) (hn : NoMoveBefore rest) :
    ∃ n t, Reaches n u t ∧ t.res = some ⟨.done, st, 0⟩ ∧ t.lst = st ∧ Quiescent t ∧ t.env = rest ∧ t.host = u.host ∧
      t.dev = u.dev ∧ t.abuf = u.abuf ∧ t.dbuf = u.dbuf ∧ t.draws = u.draws := by
  obtain ⟨n, v, hv, hvi, hvp, rfl, rfl, huv, hdbuf⟩ := attempt_run hi hb hp he hs
  have hf := writeNeverRetries v hvi (huv.bsy.trans hb) (huv.isRead.trans hr) hvp hn
  obtain ⟨hcbh, hnah, -⟩ := hvi.noAttempt (.inr hvp)
  exact ⟨n + 1, _, hv.trans (.one hf), rfl, rfl, ⟨rfl, rfl, rfl, hcbh, hnah⟩, rfl, huv.host, huv.dev, huv.abuf,
    hdbuf hr, huv.draws⟩

/-- R150, R170, R172: the commands that write are accepted as writes. -/
theorem exec_write {i : Instr} (s : State)
    (h : (∃ dev reg val, i = .wr dev reg val) ∨ (∃ mode modr, i = .cfgm mode modr) ∨
      ∃ scale res odr, i = .cfga scale res odr ∧ odr.toNat ≤ 10 ∧ validAcc res odr = true) :
    ∃ op dev reg val, writeOpcode op ∧ exec i s = .next (s.acceptWrite op dev reg val) := by
  rcases h with ⟨dev, reg, val, rfl⟩ | ⟨mode, modr, rfl⟩ | ⟨scale, res, odr, rfl, hm, hv⟩
  · exact ⟨_, _, _, _, .inl rfl, exec_wr dev reg val s⟩
  · exact ⟨_, _, _, _, .inr (.inr rfl), exec_cfgm mode modr s⟩
  · exact ⟨_, _, _, _, .inr (.inl rfl), exec_cfga_valid scale s hm hv⟩

/-- Settles O39: acceptance, one attempt, and the step Finish. -/
theorem writeCommandsComplete : Obligations.WriteCommandsComplete := by
  intro i s st script rest hw hi hb he hs hn
  obtain ⟨op, dev, reg, val, hop, hexec⟩ := exec_write s hw
  obtain ⟨-, hp, -⟩ := hi.quiet hb
  have hread : (s.acceptWrite op dev reg val).isRead = false := (isRead_false_iff _).mpr (writeOpcode_ne_read hop)
  obtain ⟨n, t, h⟩ := write_run (hi.acceptWrite dev reg val hb hop) rfl hread hp he hs hn
  exact ⟨_, n, t, hexec, h⟩

/-! ## Reads (R153, R154) -/

/-- R153, R154: a read's attempt that ends clean, or that is its last, ends in the result. -/
theorem last_attempt_run {s : State} {st : Status} {script : List EnvMove} {rest : Environment} (h : Reading s)
    (hp : s.ph = .idle) (he : Environment.Begins script s.env rest) (hs : AttemptScript st script)
    (hn : NoMoveBefore rest) (hlast : st = Config.stNoErr ∨ s.att = 1) :
    ∃ n t b, Reaches n s t ∧ t.res = some ⟨.done, st, b⟩ ∧ (st = Config.stNoErr → b = t.dbuf) ∧ t.lst = st ∧
      Quiescent t ∧ t.env = rest ∧ t.dev = s.dev ∧ t.abuf = s.abuf := by
  obtain ⟨n, v, hv, hvi, hvp, hlst, rfl, hsv, -⟩ := attempt_run h.inv h.busy hp he hs
  have hv' := h.reaches hv hsv
  obtain ⟨hcbh, hnah, -⟩ := hvi.noAttempt (.inr hvp)
  obtain ⟨hclean, -, hexhausted, -⟩ := readRetryPolicy v hvi hv'.busy hv'.read hvp hn
  by_cases hst : st = Config.stNoErr
  · subst hst
    exact ⟨_, _, v.dbuf, hv.trans (.one (hclean hlst)), rfl, fun _ => rfl, hlst, ⟨rfl, rfl, rfl, hcbh, hnah⟩, rfl,
      hsv.dev, hsv.abuf⟩
  · subst hlst
    obtain ⟨b, hf⟩ := hexhausted hst (hsv.att.trans (hlast.resolve_left hst))
    exact ⟨_, _, b, hv.trans (.one hf), rfl, fun hst' => absurd hst' hst, rfl, ⟨rfl, rfl, rfl, hcbh, hnah⟩, rfl,
      hsv.dev, hsv.abuf⟩

/-- R154: a read whose first attempt fails starts its second, on the same address. Cell changes that come first are made
at `Closed`. -/
theorem first_attempt_fails_run {s : State} {st st2 : Status} {script script2 : List EnvMove} {rest : Environment}
    (h : Reading s) (hp : s.ph = .idle) (ha : s.att = 2) (hs : AttemptScript st script) (hst : st ≠ Config.stNoErr)
    (hs2 : AttemptScript st2 script2) (he : Environment.Begins (script ++ script2) s.env rest) :
    ∃ n t left, Reaches n s t ∧ Reading t ∧ t.ph = .idle ∧ t.att = 1 ∧ t.dev = s.dev ∧ t.abuf = s.abuf ∧
      AttemptScript st2 left ∧ Environment.Begins left t.env rest := by
  obtain ⟨hbusy2, waiting, events, rfl, hw, hk⟩ := hs2
  obtain ⟨_, hscript, he⟩ := Environment.begins_append.mp he
  obtain ⟨_, v, hv, -, hvp, hvl, rfl, hsv, -⟩ := attempt_run h.inv h.busy hp hscript hs
  have hv' := h.reaches hv hsv
  rw [List.append_assoc, List.cons_append] at he
  obtain ⟨_, w, left, hw', hvw, hwn, hwe, hl⟩ := cells_run hv'.busy he
    (fun x hx => EnvMove.not_reset_of_keepsWaiting (hw x hx)) rfl
  have hsw := hsv.trans hvw.held
  have hwr := hv'.reaches hw' hvw.held
  have hwl : w.lst ≠ Config.stNoErr := by rwa [hvw.lst, hvl]
  obtain ⟨-, hretry, -⟩ := readRetryPolicy w hwr.inv hwr.busy hwr.read (hvw.ph.trans hvp) hwn
  have hf := hretry hwl (hsw.att.trans ha)
  refine ⟨_, _, left ++ .grant true :: events ++ [.status st2], hv.trans (hw'.trans (.one hf)),
    ⟨hwr.inv.of_step hf, hwr.busy, hwr.read⟩, rfl, rfl, hsw.dev, hsw.abuf,
    ⟨hbusy2, left, events, rfl, fun x hx => hw x (hl hx), hk⟩, ?_⟩
  rw [List.append_assoc, List.cons_append]
  exact hwe

/-- Settles O40: acceptance, then one attempt, or a failed one and a last one. -/
theorem readCompletes : Obligations.ReadCompletes := by
  intro s dev reg st st2 script script2 rest hi hb hs hn
  have h : Reading (s.accept 0x4#4 Config.rdAttempts dev reg).drawDbuf := ⟨hi.acceptRead dev reg hb, rfl, rfl⟩
  obtain ⟨-, hp, -⟩ := hi.quiet hb
  refine ⟨fun hst he => ?_, fun hst hs2 he => ?_⟩
  · obtain ⟨n, t, b, ht, hres, hbyte, hlst, hq, henv, hdev, habuf⟩ := last_attempt_run h hp he hs hn (.inl hst)
    subst hst
    obtain rfl := hbyte rfl
    exact ⟨_, n, t, exec_rd dev reg s, ht, hres, hlst, hq, henv, hdev, habuf⟩
  · obtain ⟨_, v, left, hv, hvr, hvp, hva, hvdev, hvabuf, hleft, hve⟩ := first_attempt_fails_run h hp rfl hs hst hs2 he
    obtain ⟨_, t, b, ht, hres, hbyte, hlst, hq, henv, hdev, habuf⟩ := last_attempt_run hvr hvp hve hleft hn (.inr hva)
    exact ⟨_, _, t, b, exec_rd dev reg s, hv.trans ht, hres, hbyte, hlst, hq, henv, hdev.trans hvdev,
      habuf.trans hvabuf⟩

end Sys2Proof.Machine

/-! PROOF. Decoded values (44_annex R182, R185, R186). -/

namespace Sys2Proof.Machine

/-! ## Axis and temperature -/

/-- The high byte carries the sign of an axis. -/
theorem toInt_append_byte (high low : Byte) : (high ++ low).toInt = 256 * high.toInt + low.toNat := by
  rw [BitVec.toInt_append, if_neg (by decide)]
  rfl

/-- Settles O59: sign extension is the two's-complement value, of the two bytes side by side and of one. -/
theorem decodedValues : Obligations.DecodedValues := by
  refine ⟨fun low high => ?_, fun b => ?_⟩
  · rw [axis, sext_eq_toInt, toInt_append_byte]
  · have htemp : temperature b = b.toInt + 25 := congrArg (· + 25) (sext_eq_toInt 8 b)
    have hlow : -128 ≤ b.toInt := b.le_toInt
    have hhigh : b.toInt < 128 := b.toInt_lt
    rw [htemp]
    exact ⟨rfl, by omega, by omega⟩

/-! ## The physical value (R185) -/

/-- In exact arithmetic both orders of evaluation give the same. -/
theorem scaled_exact {f : NumberFormat} (hf : f.IsExact) (raw : Int) (scale : Scale) :
    f.scaled raw scale = (raw : ℚ) * ((sensitivity scale : ℚ) / 1000) / 10 := by
  unfold NumberFormat.scaled
  cases f.order with
  | multiplyFirst => simp only [NumberFormat.div, NumberFormat.mul, NumberFormat.sensitivity, hf _]
  | divideFirst =>
    simp only [NumberFormat.div, NumberFormat.mul, NumberFormat.sensitivity, hf _]
    ring

theorem physicalValue_exact {f : NumberFormat} (hf : f.IsExact) (raw : Int) (scale : Scale) :
    physicalValue f raw scale = (f.round (f.scaled raw scale) : ℚ) / 100 := by
  simp only [physicalValue, NumberFormat.div, hf _]

/-- 6.1 has one nearest integer. -/
theorem eq_six_of_near {k : Int} (h : |(k : ℚ) - 61 / 10| ≤ 1 / 2) : k = 6 := by
  obtain ⟨hlow, hhigh⟩ := abs_le.mp h
  have h1 : ((5 : Int) : ℚ) < k := by
    push_cast
    linarith
  have h2 : (k : ℚ) < (7 : Int) := by
    push_cast
    linarith
  have h1 := Int.cast_lt.mp h1
  have h2 := Int.cast_lt.mp h2
  omega

/-- Settles O58: the integer is the rounding of the exact product, whichever operation comes first. -/
theorem physicalValueIsRoundedTwice : Obligations.PhysicalValueIsRoundedTwice := by
  refine ⟨fun f raw scale hf hr => ⟨f.round (f.scaled raw scale), physicalValue_exact hf raw scale, ?_⟩, fun f hf hr => ?_⟩
  · rw [← scaled_exact hf]
    exact hr _
  · have hscaled : f.scaled 1000 .g2 = 61 / 10 := by
      rw [scaled_exact hf]
      norm_num [sensitivity]
    have hround : f.round (61 / 10) = 6 := eq_six_of_near (hr _)
    rw [physicalValue_exact hf, hscaled, hround]
    rfl

end Sys2Proof.Machine

/-! PROOF. An attempt move by move: its port calls (42_transaction R158), and what becomes of the addressed cell when the
environment keeps the premises P3 and P4 (20_memory R64, R68). -/

namespace Sys2Proof.Machine

/-! ## Runs over moves written out -/

/-- When under each of the moves a step from a `good` state uses the move up and leads to a `good` state, the run over all
of them takes one step a move; `kept` relates where it starts, what it shows on the port, and where it leads. -/
theorem script_run {p : EnvMove → Prop} {good : State → Prop} {kept : State → List PortItem → State → Prop}
    (hrefl : ∀ s, kept s [] s) (htrans : ∀ s u t a b, kept s a u → kept u b t → kept s (a ++ b) t)
    (hstep : ∀ s m, good s → s.env.move = some m → p m →
      ∃ u, step s = .next u ∧ u.env = s.env.next ∧ good u ∧ kept s u.port u)
    {s : State} {moves : List EnvMove} {rest : Environment} (hg : good s) (he : Environment.Begins moves s.env rest)
    (hm : ∀ m ∈ moves, p m) :
    ∃ t, Reaches moves.length s t ∧ t.env = rest ∧ good t ∧ kept s (portTrace moves.length s) t := by
  induction moves generalizing s with
  | nil => exact ⟨s, .refl s, he, hg, hrefl s⟩
  | cons m moves ih =>
    obtain ⟨hm, hms⟩ := List.forall_mem_cons.mp hm
    obtain ⟨u, hu, hue, hug, hsu⟩ := hstep s m hg he.1 hm
    obtain ⟨t, ht, hte, htg, hut⟩ := ih hug (hue ▸ he.2) hms
    refine ⟨t, .head hu ht, hte, htg, ?_⟩
    rw [List.length_cons, portTrace_succ hu]
    exact htrans s u t _ _ hsu hut

/-- Under a move that does not touch the device register space, no cell changes. -/
theorem busyStep_mem_untouched {s : State} {m : EnvMove} (he : s.env.move = some m) (hm : m.touchesCells = false) :
    (busyStep s).mem = s.mem := by
  have hn : NoResetNext s := fun hr => by
    cases he.symm.trans hr
    cases hm
  rcases busyStep_mem hn with h | ⟨-, hstore, -⟩ | ⟨_, _, _, hcell, -⟩
  · exact h
  · cases he.symm.trans hstore
    cases hm
  · cases he.symm.trans hcell
    cases hm

theorem busyStep_cell {s : State} {d r b : Byte} (he : s.env.move = some (.cell d r b)) :
    busyStep s = cellChanges d r b s.pop := by
  simp only [busyStep, he]

/-! ## Waiting for the bus -/

/-- What waiting for the bus does: refusals on the port, and cell changes, of which there are none when `untouched`. -/
structure Waited (untouched : Prop) (s : State) (items : List PortItem) (t : State) : Prop where
  same : SameButCells s t
  refusals : ∀ x ∈ items, x = .tOpen s.dev false
  mem : untouched → t.mem = s.mem

theorem Waited.trans {c : Prop} {s u t : State} {a b : List PortItem} (h : Waited c s a u) (k : Waited c u b t) :
    Waited c s (a ++ b) t :=
  ⟨h.same.trans k.same,
    List.forall_mem_append.mpr ⟨h.refusals, fun x hx => by rw [k.refusals x hx, h.same.held.dev]⟩,
    fun hc => (k.mem hc).trans (h.mem hc)⟩

theorem Waited.step {c : Prop} {s : State} {m : EnvMove} (h : Acquiring s) (he : s.env.move = some m)
    (hm : m.keepsWaiting = true ∧ (c → m.touchesCells = false)) :
    ∃ u, step s = .next u ∧ u.env = s.env.next ∧ Acquiring u ∧ Waited c s u.port u := by
  obtain ⟨hwait, huntouched⟩ := hm
  obtain ⟨u, hu, hue, hug, hsame, -⟩ := step_without_grant h fun x hx => Option.some.inj (he.symm.trans hx) ▸ hwait
  refine ⟨u, hu, hue, hug, hsame, ?_, ?_⟩ <;> rw [step_busy h.busy] at hu <;> cases hu
  · rcases busyStep_cases s with ⟨_, _, _, -, hs⟩ | ⟨hr, -⟩ | ⟨-, hs⟩
    · rw [hs]
      exact nofun
    · cases he.symm.trans hr
      cases hwait
    · rw [hs, attemptStep, h.idle]
      rcases acquire_cases s with ha | ⟨hgrant, -⟩
      · simp only [ha]
        exact fun _ => List.mem_singleton.mp
      · cases he.symm.trans hgrant
        cases hwait
  · exact fun hc => busyStep_mem_untouched he (huntouched hc)

theorem waiting_run {s : State} {waiting : List EnvMove} {rest : Environment} (h : Acquiring s)
    (he : Environment.Begins waiting s.env rest) (hw : ∀ m ∈ waiting, m.keepsWaiting = true) :
    ∃ t, Reaches waiting.length s t ∧ t.env = rest ∧ Acquiring t ∧
      Waited (∀ m ∈ waiting, m.touchesCells = false) s (portTrace waiting.length s) t :=
  script_run (fun s => ⟨.refl s, nofun, fun _ => rfl⟩) (fun _ _ _ _ _ => Waited.trans) (fun _ _ => Waited.step) h he
    fun m hm => ⟨hw m hm, fun hc => hc m hm⟩

/-! ## During the transfer -/

/-- Items of a transfer: the events, their answers, `T.close`, and the re-arming of the data buffer. -/
def PortItem.ofTransfer : PortItem → Bool
  | .tOpen _ _ => false
  | .tSetbuf buf _ => decide (buf = .dbuf)
  | .tSetcb _ _ => false
  | .tSetnack _ => false
  | .tStart => false
  | _ => true

/-- How often the installed handler can still fire. -/
def CompletionHandler.toFire : CompletionHandler → Nat
  | .none => 0
  | .wrStage => 1
  | .rdStage => 1

/-- What events and busy polls do: the command is held, a write keeps its byte, the data buffer is re-armed only by the
handler, and no cell changes when `untouched`. -/
structure Polled (untouched : Prop) (s : State) (items : List PortItem) (t : State) : Prop where
  held : Held s t
  dbuf : s.isRead = false → t.dbuf = s.dbuf
  ofTransfer : ∀ x ∈ items, x.ofTransfer = true
  rearmed : items.count (.tSetbuf .dbuf 1) + t.cbh.toFire ≤ s.cbh.toFire
  mem : untouched → t.mem = s.mem

theorem Polled.refl {c : Prop} (s : State) : Polled c s [] s :=
  ⟨.refl s, fun _ => rfl, nofun, by simp, fun _ => rfl⟩

theorem Polled.trans {c : Prop} {s u t : State} {a b : List PortItem} (h : Polled c s a u) (k : Polled c u b t) :
    Polled c s (a ++ b) t := by
  refine ⟨h.held.trans k.held, fun hr => (k.dbuf (h.held.isRead.trans hr)).trans (h.dbuf hr),
    List.forall_mem_append.mpr ⟨h.ofTransfer, k.ofTransfer⟩, ?_, fun hc => (k.mem hc).trans (h.mem hc)⟩
  have h1 := h.rearmed
  have h2 := k.rearmed
  rw [List.count_append]
  omega

/-- What a step of a transfer may show on the port, by the handler it finds installed. -/
structure ShowsTransfer (handler : CompletionHandler) (u : State) : Prop where
  ofTransfer : ∀ x ∈ u.port, x.ofTransfer = true
  rearmed : u.port.count (.tSetbuf .dbuf 1) + u.cbh.toFire ≤ handler.toFire

theorem showsTransfer_poll (s : State) : ShowsTransfer s.cbh (busyPoll s) := by
  constructor <;> simp [PortItem.ofTransfer]

theorem onComplete_shows (s : State) : ShowsTransfer s.cbh (onComplete s) := by
  cases hc : s.cbh with
  | none =>
    rw [onComplete_none hc]
    constructor <;> simp [PortItem.ofTransfer, hc]
  | wrStage =>
    rw [onComplete_wrStage hc]
    constructor <;> simp [PortItem.ofTransfer, CompletionHandler.toFire, handlerFires, Config.bufLen]
  | rdStage =>
    rw [onComplete_rdStage hc]
    constructor <;> simp [PortItem.ofTransfer, CompletionHandler.toFire, handlerFires, Config.bufLen]

theorem onAddrNack_shows (s : State) : ShowsTransfer s.cbh (onAddrNack s) := by
  unfold onAddrNack
  split
  · constructor <;> simp [PortItem.ofTransfer]
  · exact showsTransfer_poll s

theorem onDeposit_shows (b : Byte) (s : State) : ShowsTransfer s.cbh (onDeposit b s) := by
  unfold onDeposit
  split
  · constructor <;> simp [PortItem.ofTransfer]
  · exact showsTransfer_poll s

theorem onStore_shows (s : State) : ShowsTransfer s.cbh (onStore s) := by
  unfold onStore
  split
  · constructor <;> simp
  · exact showsTransfer_poll s

theorem closeCall_shows (st : Status) (s : State) : ShowsTransfer s.cbh (closeCall st s) := by
  unfold closeCall
  split
  · exact showsTransfer_poll s
  · constructor <;> simp [PortItem.ofTransfer, CompletionHandler.toFire]

theorem transfer_shows (s : State) : ShowsTransfer s.cbh (transfer s) := by
  unfold transfer
  split
  · exact onComplete_shows s.pop
  · exact onAddrNack_shows s.pop
  · exact onDeposit_shows _ s.pop
  · exact onStore_shows s.pop
  · exact closeCall_shows _ s.pop
  · exact showsTransfer_poll s.pop

theorem Polled.step {c : Prop} {s : State} {m : EnvMove} (h : Inv s ∧ Transferring s) (he : s.env.move = some m)
    (hm : m.keepsTransferring ∧ (c → m.touchesCells = false)) :
    ∃ u, step s = .next u ∧ u.env = s.env.next ∧ (Inv u ∧ Transferring u) ∧ Polled c s u.port u := by
  obtain ⟨hi, ht⟩ := h
  obtain ⟨hkeep, huntouched⟩ := hm
  obtain ⟨u, hu, hup, hue, hheld, hdbuf⟩ := keep_step hi ht.busy ht.phase he hkeep
  refine ⟨u, hu, hue, ⟨hi.of_step hu, hheld.bsy.trans ht.busy, hup⟩, ?_⟩
  have hshows : ShowsTransfer s.cbh u := by
    rw [step_busy ht.busy] at hu
    cases hu
    rcases busyStep_cases s with ⟨_, _, _, -, hs⟩ | ⟨hr, -⟩ | ⟨hn, hs⟩
    · rw [hs]
      constructor <;> simp [cellChanges]
    · cases he.symm.trans hr
      exact hkeep.elim
    · have hs := (step_busy ht.busy).symm.trans (step_transfer ht.busy ht.phase hn)
      rw [Host.Outcome.next.inj hs]
      exact transfer_shows s
  refine ⟨hheld, hdbuf, hshows.ofTransfer, hshows.rearmed, fun hc => ?_⟩
  rw [step_busy ht.busy] at hu
  cases hu
  exact busyStep_mem_untouched he (huntouched hc)

theorem polling_run {s : State} {events : List EnvMove} {rest : Environment} (hi : Inv s) (ht : Transferring s)
    (he : Environment.Begins events s.env rest) (hk : ∀ m ∈ events, m.keepsTransferring) :
    ∃ t, Reaches events.length s t ∧ t.env = rest ∧ (Inv t ∧ Transferring t) ∧
      Polled (∀ m ∈ events, m.touchesCells = false) s (portTrace events.length s) t :=
  script_run Polled.refl (fun _ _ _ _ _ => Polled.trans) (fun _ _ => Polled.step) ⟨hi, ht⟩ he
    fun m hm => ⟨hk m hm, fun hc => hc m hm⟩

/-! ## From `Idle` to the transfer (R132, R133) -/

/-- `n` steps lead from `s` to `t` and show `items` on the port. -/
structure Shows (n : Nat) (s : State) (items : List PortItem) (t : State) : Prop where
  reaches : Reaches n s t
  trace : portTrace n s = items

theorem Shows.trans {m n : Nat} {s u t : State} {a b : List PortItem} (h : Shows m s a u) (k : Shows n u b t) :
    Shows (m + n) s (a ++ b) t :=
  ⟨h.reaches.trans k.reaches, by rw [portTrace_add h.reaches, h.trace, k.trace]⟩

theorem Shows.one {s t : State} (h : step s = .next t) : Shows 1 s t.port t :=
  ⟨.one h, by rw [portTrace_succ h, portTrace_zero, List.append_nil]⟩

theorem step_granted {s : State} (h : Acquiring s) (he : s.env.move = some (.grant true)) :
    step s = .next (openCall true s.pop) := by
  rw [step_acquire h.busy h.idle (noMoveBefore_of_move he rfl), acquire_answered he]

/-- Cell changes show nothing on the port. -/
theorem cell_step {s : State} {m : EnvMove} (hb : s.bsy = true) (he : s.env.move = some m)
    (hm : m.isAutonomous = true ∧ m.isReset = false) :
    ∃ u, step s = .next u ∧ u.env = s.env.next ∧ u.bsy = true ∧ SameButCells s u ∧ u.port = [] := by
  obtain ⟨ha, hr⟩ := hm
  cases m with
  | cell d r b => exact ⟨_, (step_busy hb).trans (congrArg _ (busyStep_cell he)), rfl, hb, rfl, rfl⟩
  | reset => cases hr
  | _ => cases ha

theorem cells_shows {s : State} {cells : List EnvMove} {rest : Environment} (hb : s.bsy = true)
    (he : Environment.Begins cells s.env rest) (hc : ∀ m ∈ cells, m.isAutonomous = true ∧ m.isReset = false) :
    ∃ t, Shows cells.length s [] t ∧ t.env = rest ∧ SameButCells s t := by
  obtain ⟨t, ht, hte, -, hst, htrace⟩ := script_run (kept := fun s items t => SameButCells s t ∧ items = [])
    (fun s => ⟨.refl s, rfl⟩)
    (fun _ _ _ _ _ ⟨h, ha⟩ ⟨k, hb⟩ => ⟨h.trans k, by rw [ha, hb, List.append_nil]⟩)
    (fun _ _ => cell_step) hb he hc
  exact ⟨t, ⟨ht, htrace⟩, hte, hst⟩

/-- The calls of acquisition and set-up after the refusals (R158). -/
def setUpCalls (s : State) : List PortItem :=
  [.tOpen s.dev true, .tSetbuf .abuf 1, .tSetcb (stageHandler s) .dbuf, .tSetnack .retry, .tStart]

/-- S1 to S5: refusals, the grant, cell changes that come before set-up, and the set-up calls; the moves from `later` on
are still to come. -/
theorem started_run {s : State} {waiting cells later : List EnvMove} {rest : Environment} (hi : Inv s)
    (h : Acquiring s) (he : Environment.Begins (waiting ++ .grant true :: (cells ++ later)) s.env rest)
    (hw : ∀ m ∈ waiting, m.keepsWaiting = true) (hc : ∀ m ∈ cells, m.isAutonomous = true ∧ m.isReset = false)
    (hturn : ∀ e, Environment.Begins later e rest → NoMoveBefore e) :
    ∃ t refusals, Shows (waiting.length + (1 + (cells.length + 4))) s (refusals ++ setUpCalls s) t ∧
      (∀ x ∈ refusals, x = .tOpen s.dev false) ∧ t.ph = .addressPhaseSent ∧ Environment.Begins later t.env rest ∧
      Held s t ∧ t.dbuf = s.dbuf ∧ (cells = [] → (∀ m ∈ waiting, m.touchesCells = false) → t.mem = s.mem) := by
  obtain ⟨_, hwait, hgrant, he⟩ := Environment.begins_append.mp he
  obtain ⟨t, ht, rfl, hta, hst⟩ := waiting_run h hwait hw
  have hu := step_granted hta hgrant
  obtain ⟨_, hcells, hlater⟩ := Environment.begins_append.mp he
  obtain ⟨v, hv, rfl, huv⟩ := cells_shows (s := openCall true t.pop) hta.busy hcells hc
  have hiv := ((hi.of_reaches ht).of_step hu).of_reaches hv.reaches
  have hbv : v.bsy = true := huv.held.bsy.trans hta.busy
  have hpv : v.ph = .busAcquired := huv.ph
  obtain ⟨-, -, hat⟩ := (hi.of_reaches ht).noAttempt (.inl hta.idle)
  have hav : v.armed = none := huv.armed.trans hat
  obtain ⟨-, hcbh, hnah⟩ := hiv.settingUp hpv
  obtain ⟨hx, htrace⟩ := setUp_run hbv hpv hav (hcbh hav) (hnah (hcbh hav)) (hturn v.env hlater)
  have htu : Held t (openCall true t.pop) := ⟨rfl, rfl, rfl, rfl, rfl, rfl, rfl⟩
  have hsv := (hst.same.held.trans htu).trans huv.held
  have hhandler : stageHandler v = stageHandler s := by rw [stageHandler, stageHandler, hsv.isRead]
  have hcalls := (Shows.one hu).trans (hv.trans ⟨hx, htrace⟩)
  have hitems : (openCall true t.pop).port ++ ([] ++ [.tSetbuf .abuf 1, .tSetcb (stageHandler v) .dbuf,
      .tSetnack .retry, .tStart]) = setUpCalls s := by
    rw [setUpCalls, hhandler, ← hst.same.held.dev]
    rfl
  rw [hitems] at hcalls
  refine ⟨_, portTrace waiting.length s, (Shows.mk ht rfl).trans hcalls, hst.refusals, rfl, hlater,
    hsv.trans ⟨rfl, rfl, rfl, rfl, rfl, rfl, rfl⟩, huv.dbuf.trans hst.same.dbuf, fun hnil hmem => ?_⟩
  subst hnil
  obtain rfl := reaches_zero.mp hv.reaches
  exact hst.mem hmem

end Sys2Proof.Machine

/-! PROOF. The port calls of one attempt (42_transaction R158), counted on its whole trace. -/

namespace Sys2Proof.Machine

/-- Cell changes at the head of the events come before set-up; what follows them waits for the block. -/
theorem exists_leading_cells {events : List EnvMove} (hk : ∀ m ∈ events, m.keepsTransferring) (st : Status) :
    ∃ cells later, events = cells ++ later ∧ (∀ m ∈ cells, m.isAutonomous = true ∧ m.isReset = false) ∧
      ∀ e rest, Environment.Begins (later ++ [.status st]) e rest → NoMoveBefore e := by
  induction events with
  | nil => exact ⟨[], [], rfl, nofun, fun e _ he => noMoveBefore_of_move he.1 rfl⟩
  | cons m events ih =>
    obtain ⟨hm, hms⟩ := List.forall_mem_cons.mp hk
    cases ha : m.isAutonomous with
    | false => exact ⟨[], m :: events, rfl, nofun, fun e _ he => noMoveBefore_of_move he.1 ha⟩
    | true =>
      obtain ⟨cells, later, rfl, hcells, hturn⟩ := ih hms
      exact ⟨m :: cells, later, rfl,
        List.forall_mem_cons.mpr ⟨⟨ha, EnvMove.not_reset_of_keepsTransferring hm⟩, hcells⟩, hturn⟩

/-- R158: the trace of an attempt: refusals, the calls of acquisition and set-up, items of the transfer with at most one
re-arming, and the status. -/
theorem attempt_shows {s : State} {st : Status} {script : List EnvMove} {rest : Environment} (hi : Inv s)
    (h : Acquiring s) (he : Environment.Begins script s.env rest) (hs : AttemptScript st script) :
    ∃ n t refusals items, Shows n s (refusals ++ setUpCalls s ++ (items ++ [.tClose st])) t ∧
      (∀ x ∈ refusals, x = .tOpen s.dev false) ∧ (∀ x ∈ items, x.ofTransfer = true) ∧
      items.count (.tSetbuf .dbuf 1) ≤ 1 ∧ t.ph = .closed ∧ t.lst = st ∧ t.env = rest := by
  obtain ⟨hst, waiting, events, rfl, hw, hk⟩ := hs
  obtain ⟨cells, later, rfl, hcells, hturn⟩ := exists_leading_cells hk st
  obtain ⟨-, hlater⟩ := List.forall_mem_append.mp hk
  rw [List.append_assoc, List.cons_append, List.append_assoc] at he
  obtain ⟨t, refusals, ht, hrefusals, htp, hte, hheld, -⟩ := started_run hi h he hw hcells fun e => hturn e rest
  obtain ⟨_, hevents, hstatus⟩ := Environment.begins_append.mp hte
  obtain ⟨v, hv, rfl, ⟨-, hvt⟩, hpolled⟩ := polling_run (hi.of_reaches ht.reaches)
    ⟨hheld.bsy.trans h.busy, by rw [htp]; rfl⟩ hevents hlater
  have hclose := step_close hvt.busy hvt.phase hstatus.1 hst
  have hone : t.cbh.toFire ≤ 1 := by cases t.cbh <;> decide
  have hrearmed := hpolled.rearmed
  exact ⟨_, _, refusals, portTrace later.length t, ht.trans ((Shows.mk hv rfl).trans (.one hclose)), hrefusals,
    hpolled.ofTransfer, by omega, rfl, rfl, hstatus.2⟩

/-- The calls of acquisition and set-up are different from each other, from a refusal and from a transfer's items. -/
theorem setUpCalls_nodup (s : State) : (setUpCalls s).Nodup := by simp [setUpCalls]

theorem setUpCalls_apart {s : State} {x : PortItem} (h : x ∈ setUpCalls s) :
    x ≠ .tOpen s.dev false ∧ x.ofTransfer = false := by
  simp only [setUpCalls, List.mem_cons, List.not_mem_nil, or_false] at h
  rcases h with rfl | rfl | rfl | rfl | rfl <;> simp [PortItem.ofTransfer]

/-- So each occurs once in the trace of an attempt. -/
theorem count_setUpCall {s : State} {st : Status} {refusals items : List PortItem} {x : PortItem}
    (hrefusals : ∀ y ∈ refusals, y = .tOpen s.dev false) (hitems : ∀ y ∈ items, y.ofTransfer = true)
    (hx : x ∈ setUpCalls s) :
    (refusals ++ setUpCalls s ++ (items ++ [PortItem.tClose st])).count x = 1 := by
  obtain ⟨hne, hxt⟩ := setUpCalls_apart hx
  have h1 : refusals.count x = 0 := List.count_eq_zero.mpr fun h => hne (hrefusals x h)
  have h2 : (setUpCalls s).count x = 1 := List.count_eq_one_of_mem (setUpCalls_nodup s) hx
  have h3 : items.count x = 0 := List.count_eq_zero.mpr fun h => by simp [hitems x h] at hxt
  have h4 : [PortItem.tClose st].count x = 0 := List.count_eq_zero.mpr fun h => by
    cases List.mem_singleton.mp h
    cases hxt
  simp only [List.count_append, h1, h2, h3, h4]

/-- Settles O41: the calls of acquisition and set-up occur once each; the re-arming is the transfer's. -/
theorem portCallsOfOneAttempt : Obligations.PortCallsOfOneAttempt := by
  intro s st script rest hi hb hp he hs
  obtain ⟨n, t, refusals, items, ⟨ht, htrace⟩, hrefusals, hitems, hrearmed, hph, hlst, henv⟩ :=
    attempt_shows hi ⟨hb, hp⟩ he hs
  have honce : ∀ x ∈ setUpCalls s, (portTrace n s).count x = 1 := fun x hx =>
    htrace ▸ count_setUpCall hrefusals hitems hx
  refine ⟨n, t, ht, hph, hlst, henv, ?_, honce _ (by simp [setUpCalls]), honce _ (by simp [setUpCalls]),
    honce _ (by simp [setUpCalls]), honce _ (by simp [setUpCalls]), honce _ (by simp [setUpCalls]), ?_, ?_⟩
  · exact List.one_le_countP_iff.mpr ⟨.tOpen s.dev true, by simp [htrace, setUpCalls], by simp⟩
  · have hnone : refusals.count (.tSetbuf .dbuf 1) = 0 :=
      List.count_eq_zero.mpr fun h => PortItem.noConfusion (hrefusals _ h)
    simp [htrace, hnone, setUpCalls, hrearmed]
  · exact List.one_le_count_iff.mpr (by simp [htrace])

end Sys2Proof.Machine

/-! PROOF. The addressed cell under the premises P3 and P4 (20_memory R64, R68; 42_transaction R150, R153): what a write
leaves in it and what a read answers of it. -/

namespace Sys2Proof.Machine

theorem EnvMove.not_autonomous_of_untouched {m : EnvMove} (h : m.touchesCells = false) : m.isAutonomous = false := by
  cases m with
  | reset | cell => cases h
  | _ => rfl

/-- After events that touch no cell, a move the block answers is still to come. -/
theorem noMoveBefore_of_untouched {events more : List EnvMove} {m : EnvMove} {e rest : Environment}
    (hu : ∀ x ∈ events, x.touchesCells = false) (hm : m.isAutonomous = false)
    (he : Environment.Begins (events ++ m :: more) e rest) : NoMoveBefore e := by
  cases events with
  | nil => exact noMoveBefore_of_move he.1 hm
  | cons x events =>
    exact noMoveBefore_of_move he.1 (EnvMove.not_autonomous_of_untouched (hu x List.mem_cons_self))

/-! ## A write in flight -/

/-- What holds of a write from its acceptance to its result. -/
structure Writing (s : State) : Prop where
  inv : Inv s
  busy : s.bsy = true
  write : s.isRead = false

/-- The command, its byte and the cells are as they were. -/
structure CellsKept (s t : State) : Prop where
  held : Held s t
  dbuf : t.dbuf = s.dbuf
  mem : t.mem = s.mem

theorem CellsKept.trans {s t u : State} (h : CellsKept s t) (k : CellsKept t u) : CellsKept s u :=
  ⟨h.held.trans k.held, k.dbuf.trans h.dbuf, k.mem.trans h.mem⟩

theorem Writing.reaches {n : Nat} {s t : State} (h : Writing s) (ht : Reaches n s t) (hst : Held s t) : Writing t :=
  ⟨h.inv.of_reaches ht, hst.bsy.trans h.busy, hst.isRead.trans h.write⟩

/-- S1 to S5 without cell changes. -/
theorem untouched_start_run {s : State} {waiting events more : List EnvMove} {m : EnvMove} {rest : Environment}
    (hi : Inv s) (h : Acquiring s)
    (he : Environment.Begins (waiting ++ .grant true :: (events ++ m :: more)) s.env rest)
    (hw : ∀ x ∈ waiting, x.keepsWaiting = true ∧ x.touchesCells = false)
    (hu : ∀ x ∈ events, x.touchesCells = false) (hm : m.isAutonomous = false) :
    ∃ t, Reaches (waiting.length + 5) s t ∧ t.ph = .addressPhaseSent ∧
      Environment.Begins (events ++ m :: more) t.env rest ∧ CellsKept s t := by
  obtain ⟨t, _, ht, -, htp, hte, hheld, hdbuf, hmem⟩ := started_run (cells := []) hi h he (fun x hx => (hw x hx).1)
    nofun fun _ => noMoveBefore_of_untouched hu hm
  exact ⟨t, ht.reaches, htp, hte, hheld, hdbuf, hmem rfl fun x hx => (hw x hx).2⟩

/-- Events that touch no cell, during a write. -/
theorem untouched_events_run {s : State} {events : List EnvMove} {rest : Environment} (h : Writing s)
    (hp : s.ph.inTransfer = true) (he : Environment.Begins events s.env rest)
    (hk : ∀ m ∈ events, m.keepsTransferring ∧ m.touchesCells = false) :
    ∃ t, Reaches events.length s t ∧ t.ph.inTransfer = true ∧ t.env = rest ∧ CellsKept s t := by
  obtain ⟨t, ht, hte, ⟨-, htt⟩, hpolled⟩ := polling_run h.inv ⟨h.busy, hp⟩ he fun m hm => (hk m hm).1
  exact ⟨t, ht, htt.phase, hte, hpolled.held, hpolled.dbuf h.write, hpolled.mem fun m hm => (hk m hm).2⟩

/-- COMPLETE, whether or not it is the first of its attempt, leaves a write in its data phase (R140). -/
theorem complete_step_of_write {s : State} (h : Writing s) (hp : s.ph.inTransfer = true)
    (he : s.env.move = some .complete) :
    ∃ u, step s = .next u ∧ u.ph = .dataPhaseSent ∧ u.env = s.env.next ∧ CellsKept s u := by
  have hopc := (isRead_false_iff s).mp h.write
  rw [step_complete h.busy hp he]
  cases hc : s.cbh with
  | none =>
    rw [onComplete_none (s := s.pop) hc]
    refine ⟨_, rfl, ?_, rfl, ⟨rfl, rfl, rfl, rfl, rfl, rfl, rfl⟩, rfl, rfl⟩
    show s.ph = .dataPhaseSent
    cases hph : s.ph with
    | addressPhaseSent => exact absurd hc (h.inv.addressPhase hph).1
    | dataPhaseReceived => exact absurd (h.inv.receivedByRead hph) hopc
    | dataPhaseSent => rfl
    | _ => simp [hph, Phase.inTransfer] at hp
  | wrStage =>
    rw [onComplete_wrStage (s := s.pop) hc]
    exact ⟨_, rfl, rfl, rfl, ⟨rfl, rfl, rfl, rfl, rfl, rfl, rfl⟩, rfl, rfl⟩
  | rdStage => exact absurd ((isRead_iff s).mp (h.inv.readHandler hc)) hopc

/-- R68: in the data phase of a write the device takes the byte. -/
theorem store_step {s : State} (hb : s.bsy = true) (hp : s.ph = .dataPhaseSent) (he : s.env.move = some .store) :
    step s = .next { s.pop.say [] with mem := s.mem.write (target s) s.dbuf } := by
  rw [step_transfer hb (by rw [hp]; rfl) (noMoveBefore_of_move he rfl), transfer, he]
  exact congrArg _ (if_pos hp)

/-- S7 and the step Finish of a write: the status is the result, the cells are kept. -/
theorem write_end_run {s : State} {st : Status} {rest : Environment} (h : Writing s) (hp : s.ph.inTransfer = true)
    (he : Environment.Begins [.status st] s.env rest) (hst : st ≠ Config.stBusy) (hn : NoMoveBefore rest) :
    ∃ t, Reaches 2 s t ∧ t.res = some ⟨.done, st, 0⟩ ∧ t.mem = s.mem := by
  obtain ⟨he, rfl⟩ := he
  have hc := step_close h.busy hp he hst
  have hf := writeNeverRetries _ (h.inv.of_step hc) h.busy h.write rfl hn
  exact ⟨_, .head hc (.one hf), rfl, rfl⟩

/-- A write in which no move touches a cell leaves every cell as it was. -/
theorem untouched_write_run {s : State} {st : Status} {waiting events : List EnvMove} {rest : Environment}
    (h : Writing s) (hp : s.ph = .idle) (hst : st ≠ Config.stBusy) (hn : NoMoveBefore rest)
    (hw : ∀ m ∈ waiting, m.keepsWaiting = true ∧ m.touchesCells = false)
    (hk : ∀ m ∈ events, m.keepsTransferring ∧ m.touchesCells = false)
    (he : Environment.Begins (waiting ++ .grant true :: (events ++ [.status st])) s.env rest) :
    ∃ t, Reaches (waiting.length + 5 + (events.length + 2)) s t ∧ t.res = some ⟨.done, st, 0⟩ ∧ t.mem = s.mem := by
  obtain ⟨t, ht, htp, hte, hst'⟩ := untouched_start_run h.inv ⟨h.busy, hp⟩ he hw (fun m hm => (hk m hm).2) rfl
  have h1 := h.reaches ht hst'.held
  obtain ⟨_, hevents, hstatus⟩ := Environment.begins_append.mp hte
  obtain ⟨u, hu, hup, rfl, htu⟩ := untouched_events_run h1 (by rw [htp]; rfl) hevents hk
  obtain ⟨v, hv, hres, hmem⟩ := write_end_run (h1.reaches hu htu.held) hup hstatus hst hn
  exact ⟨v, ht.trans (hu.trans hv), hres, hmem.trans (hst'.trans htu).mem⟩

/-- R150 with P4: a write whose byte the device takes, with no other change, overwrites the addressed cell. -/
theorem faithful_write_run {s : State} {st : Status} {waiting before after : List EnvMove} {rest : Environment}
    (h : Writing s) (hp : s.ph = .idle) (hst : st ≠ Config.stBusy) (hn : NoMoveBefore rest)
    (hw : ∀ m ∈ waiting, m.keepsWaiting = true ∧ m.touchesCells = false)
    (hbefore : ∀ m ∈ before, m.keepsTransferring ∧ m.touchesCells = false)
    (hafter : ∀ m ∈ after, m.keepsTransferring ∧ m.touchesCells = false)
    (he : Environment.Begins
      (waiting ++ .grant true :: (before ++ .complete :: .store :: (after ++ [.status st]))) s.env rest) :
    ∃ t, Reaches (waiting.length + 5 + (before.length + (2 + (after.length + 2)))) s t ∧
      t.res = some ⟨.done, st, 0⟩ ∧ t.mem = s.mem.write (cellAddr s.dev s.abuf) s.dbuf := by
  obtain ⟨t, ht, htp, hte, hkt⟩ := untouched_start_run h.inv ⟨h.busy, hp⟩ he hw (fun m hm => (hbefore m hm).2) rfl
  have h1 := h.reaches ht hkt.held
  obtain ⟨_, hevents, hte⟩ := Environment.begins_append.mp hte
  obtain ⟨u, hu, hup, rfl, hku⟩ := untouched_events_run h1 (by rw [htp]; rfl) hevents hbefore
  have h2 := h1.reaches hu hku.held
  obtain ⟨hcomplete, hstore, hte⟩ := hte
  obtain ⟨v, hv, hvp, hve, hkv⟩ := complete_step_of_write h2 hup hcomplete
  have h3 := h2.reaches (.one hv) hkv.held
  rw [← hve] at hstore hte
  have hx := store_step h3.busy hvp hstore
  have hkept := (hkt.trans hku).trans hkv
  have h4 : Writing { v.pop.say [] with mem := v.mem.write (target v) v.dbuf } :=
    ⟨h3.inv.of_step hx, h3.busy, h3.write⟩
  obtain ⟨_, hevents, hstatus⟩ := Environment.begins_append.mp hte
  obtain ⟨y, hy, hyp, rfl, hky⟩ := untouched_events_run h4 (congrArg Phase.inTransfer hvp) hevents hafter
  obtain ⟨z, hz, hres, hmem⟩ := write_end_run (h4.reaches hy hky.held) hyp hstatus hst hn
  refine ⟨z, ht.trans (hu.trans ((Reaches.head hv (.one hx)).trans (hy.trans hz))), hres, ?_⟩
  calc z.mem
    _ = v.mem.write (cellAddr v.dev v.abuf) v.dbuf := hmem.trans hky.mem
    _ = s.mem.write (cellAddr s.dev s.abuf) s.dbuf := by rw [hkept.mem, hkept.held.dev, hkept.held.abuf, hkept.dbuf]

theorem writing_acceptWrite {s : State} (dev reg val : Byte) (hi : Inv s) (hb : s.bsy = false) :
    Writing (s.acceptWrite 0x3#4 dev reg val) :=
  ⟨hi.acceptWrite dev reg val hb (.inl rfl), rfl, rfl⟩

/-- Settles O46: the run of a faithful write, from its acceptance. -/
theorem faithfulWriteOverwritesOneCell : Obligations.FaithfulWriteOverwritesOneCell := by
  intro s u dev reg val st waiting before after rest hi hb hst hn hw hk he hx
  rw [exec_wr] at hx
  cases hx
  obtain ⟨-, hp, -⟩ := hi.quiet hb
  obtain ⟨hbefore, hafter⟩ := List.forall_mem_append.mp hk
  obtain ⟨t, ht, hres, hmem⟩ :=
    faithful_write_run (writing_acceptWrite dev reg val hi hb) hp hst hn hw hbefore hafter he
  obtain ⟨hcell, hother⟩ := read_of_write hmem
  exact ⟨_, t, ht, hres, hcell, hother⟩

/-- The invariant says nothing of the moves to come. -/
theorem Inv.withEnv {s : State} (hi : Inv s) (e : Environment) : Inv { s with env := e } := { hi with }

/-- Settles O47: the same status ends a faithful write and one in which no cell is touched. -/
theorem failedWriteMayOrMayNotLand : Obligations.FailedWriteMayOrMayNotLand := by
  intro s dev reg val st hi hb hst _
  obtain ⟨-, hp, -⟩ := hi.quiet hb
  refine ⟨?_, ?_⟩
  · have h := writing_acceptWrite dev reg val (hi.withEnv (.only [.grant true, .complete, .store, .status st])) hb
    obtain ⟨t, ht, hres, hmem⟩ := faithful_write_run (waiting := []) (before := []) (after := []) h hp hst
      (noMoveBefore_of_silent rfl) nofun nofun nofun (Environment.begins_only _)
    obtain ⟨hcell, hother⟩ := read_of_write hmem
    exact ⟨_, t, exec_wr dev reg val _, ht, hres, hcell, hother⟩
  · have h := writing_acceptWrite dev reg val (hi.withEnv (.only [.grant true, .complete, .status st])) hb
    obtain ⟨t, ht, hres, hmem⟩ := untouched_write_run (waiting := []) (events := [.complete]) h hp hst
      (noMoveBefore_of_silent rfl) nofun (List.forall_mem_singleton.mpr ⟨trivial, rfl⟩) (Environment.begins_only _)
    exact ⟨_, t, exec_wr dev reg val _, ht, hres, fun a => by rw [hmem]; rfl⟩

/-! ## A read with one COMPLETE and a faithful deposit (R153) -/

/-- Busy answers change nothing but the port. -/
theorem busy_polls_run {s : State} {m : Nat} {rest : Environment} (h : Transferring s)
    (he : Environment.Begins (List.replicate m (.status Config.stBusy)) s.env rest) :
    ∃ t, Reaches m s t ∧ t.env = rest ∧ SameButCells s t ∧ t.mem = s.mem := by
  obtain ⟨t, ht, hte, -, hst, hmem⟩ := script_run (good := Transferring) (p := (· = .status Config.stBusy))
    (kept := fun s _ t => SameButCells s t ∧ t.mem = s.mem) (fun s => ⟨.refl s, rfl⟩)
    (fun _ _ _ _ _ ⟨h, hm⟩ ⟨k, km⟩ => ⟨h.trans k, km.trans hm⟩)
    (fun _ x hg hx hp => ⟨_, step_busy_poll hg fun y hy => (Option.some.inj (hx.symm.trans hy)) ▸ hp, rfl,
      ⟨hg.busy, hg.phase⟩, rfl, rfl⟩) h he fun _ hx => List.eq_of_mem_replicate hx
  rw [List.length_replicate] at ht
  exact ⟨t, ht, hte, hst, hmem⟩

/-- S7 and the step Finish of a clean read: the byte of `DBUF`, the cells kept. -/
theorem clean_read_end {s : State} {rest : Environment} (h : Reading s) (hp : s.ph.inTransfer = true)
    (he : Environment.Begins [.status Config.stNoErr] s.env rest) (hn : NoMoveBefore rest) :
    ∃ t, Reaches 2 s t ∧ t.res = some ⟨.done, Config.stNoErr, s.dbuf⟩ ∧ t.mem = s.mem := by
  obtain ⟨he, rfl⟩ := he
  have hc := step_close h.busy hp he stNoErr_ne_stBusy
  have hf := (readRetryPolicy _ (h.inv.of_step hc) h.busy h.read rfl hn).1 rfl
  exact ⟨_, .head hc (.one hf), rfl, rfl⟩

/-- Settles O48: the deposit, which is the content of the cell, stays in `DBUF` until the clean status. -/
theorem faithfulReadReturnsCellContent : Obligations.FaithfulReadReturnsCellContent := by
  intro s u dev reg b n m rest hi hb hn hcell hx he
  rw [exec_rd] at hx
  cases hx
  have h : Reading (s.accept 0x4#4 Config.rdAttempts dev reg).drawDbuf := ⟨hi.acceptRead dev reg hb, rfl, rfl⟩
  obtain ⟨-, hp, -⟩ := hi.quiet hb
  obtain ⟨t, ht, htp, ⟨hcomplete, hdeposit, hte⟩, hkt⟩ := untouched_start_run (events := []) h.inv ⟨h.busy, hp⟩ he
    (fun x hx => by rw [List.eq_of_mem_replicate hx]; exact ⟨rfl, rfl⟩) nofun rfl
  have h1 := h.reaches ht hkt.held
  obtain ⟨v, hv, hvp, hve, htv, hvd⟩ := complete_step_of_read h1 (by rw [htp]; rfl) hcomplete
  have hvmem : v.mem = t.mem := by
    rw [step_busy h1.busy] at hv
    cases hv
    exact busyStep_mem_untouched hcomplete rfl
  have h2 := h1.reaches (.one hv) htv
  rw [← hve] at hdeposit hte
  obtain ⟨-, -, htd⟩ := h1.inv.addressPhase htp
  have hw := deposit_step h2.busy hvp (hvd.trans htd) hdeposit
  have h3 : Reading { v.pop.say [.deposit b] with dbuf := b, deposited := true } :=
    ⟨h2.inv.of_step hw, h2.busy, h2.read⟩
  obtain ⟨_, hpolls, hstatus⟩ := Environment.begins_append.mp hte
  obtain ⟨y, hy, rfl, hwy, hymem⟩ := busy_polls_run ⟨h3.busy, congrArg Phase.inTransfer hvp⟩ hpolls
  obtain ⟨z, hz, hres, hzmem⟩ := clean_read_end (h3.reaches hy hwy.held)
    (by rw [hwy.ph]; exact congrArg Phase.inTransfer hvp) hstatus hn
  have hreach := ht.trans ((Reaches.head hv (.one hw)).trans (hy.trans hz))
  have hcount : (List.replicate n (EnvMove.grant false)).length + 5 + (2 + (m + 2)) = n + m + 9 := by
    rw [List.length_replicate]
    omega
  rw [hcount] at hreach
  refine ⟨z, hreach, by rw [hres, hwy.dbuf], ?_⟩
  rw [hzmem, hymem]
  show v.mem.read _ = _
  rw [hvmem, hkt.mem]
  exact hcell

end Sys2Proof.Machine
